-- ==== Sys2Proof/Word.lean ====
section
/-! DEFINITION. The words of the core: bytes, 16-bit words, 12-bit addresses and nibbles (00_scope.md R8, R13).
All values are unsigned (00_scope.md R12). -/

namespace Sys2Proof

/-- An 8-bit register or memory byte (00_scope.md R8). -/
abbrev Byte := BitVec 8

/-- A 16-bit word: an opcode, PC, I, a stack slot (00_scope.md R8). -/
abbrev Word := BitVec 16

/-- The 12-bit address field `nnn` (00_scope.md R13). -/
abbrev Addr := BitVec 12

/-- A 4-bit field of an opcode (30_encoding.md R71). -/
abbrev Nibble := BitVec 4

/-- `zext_16` of a byte (00_scope.md R12). -/
def zextByte (b : Byte) : Word := b.setWidth 16

/-- `zext_16(nnn)` (30_encoding.md R73). -/
def zextAddr (a : Addr) : Word := a.setWidth 16

end Sys2Proof
end

