-- ==== Sys2Proof/Syntax.lean ====
section
/-! DEFINITION. The instructions: one constructor for each row of spec/opcode_table.json, with the fields the row's
pattern names (30_encoding.md R71, R72, R77). -/

namespace Sys2Proof

/-- The index of a general register, the value of a field x or y (30_encoding.md R74). -/
abbrev Reg := Fin 16

/-- The index of a key (10_state.md R31). -/
abbrev KeyIx := Fin 16

/-- The 34 instructions (30_encoding.md R86). A field that an instruction ignores is kept, so that the
instruction still determines its word (30_encoding.md R78: nnn of SYS, y of SHR and SHL). -/
inductive Instr where
  /-- `00E0` CLS (R250). -/
  | cls
  /-- `00EE` RET (R131). -/
  | ret
  /-- `0nnn` SYS nnn (R130). -/
  | sys (nnn : Addr)
  /-- `1nnn` JP nnn (R132). -/
  | jp (nnn : Addr)
  /-- `2nnn` CALL nnn (R133). -/
  | call (nnn : Addr)
  /-- `3xkk` SE Vx, kk (R150). -/
  | seImm (x : Reg) (kk : Byte)
  /-- `4xkk` SNE Vx, kk (R151). -/
  | sneImm (x : Reg) (kk : Byte)
  /-- `5xy0` SE Vx, Vy (R152). -/
  | seReg (x y : Reg)
  /-- `6xkk` LD Vx, kk (R170). -/
  | ldImm (x : Reg) (kk : Byte)
  /-- `7xkk` ADD Vx, kk (R171). -/
  | addImm (x : Reg) (kk : Byte)
  /-- `8xy0` LD Vx, Vy (R172). -/
  | ldReg (x y : Reg)
  /-- `8xy1` OR Vx, Vy (R173). -/
  | orReg (x y : Reg)
  /-- `8xy2` AND Vx, Vy (R174). -/
  | andReg (x y : Reg)
  /-- `8xy3` XOR Vx, Vy (R175). -/
  | xorReg (x y : Reg)
  /-- `8xy4` ADD Vx, Vy (R176). -/
  | addReg (x y : Reg)
  /-- `8xy5` SUB Vx, Vy (R177). -/
  | sub (x y : Reg)
  /-- `8xy6` SHR Vx, y ignored (R178). -/
  | shr (x y : Reg)
  /-- `8xy7` SUBN Vx, Vy (R179). -/
  | subn (x y : Reg)
  /-- `8xyE` SHL Vx, y ignored (R180). -/
  | shl (x y : Reg)
  /-- `9xy0` SNE Vx, Vy (R153). -/
  | sneReg (x y : Reg)
  /-- `Annn` LD I, nnn (R200). -/
  | ldI (nnn : Addr)
  /-- `Bnnn` JP V0, nnn (R138). -/
  | jpV0 (nnn : Addr)
  /-- `Cxkk` RND Vx, kk (R186). -/
  | rnd (x : Reg) (kk : Byte)
  /-- `Dxyn` DRW Vx, Vy, n (R252). -/
  | drw (x y : Reg) (n : Nibble)
  /-- `Ex9E` SKP Vx (R154). -/
  | skp (x : Reg)
  /-- `ExA1` SKNP Vx (R155). -/
  | sknp (x : Reg)
  /-- `Fx07` LD Vx, DT (R230). -/
  | ldVxDt (x : Reg)
  /-- `Fx0A` LD Vx, K (R232). -/
  | ldVxK (x : Reg)
  /-- `Fx15` LD DT, Vx (R231). -/
  | ldDtVx (x : Reg)
  /-- `Fx1E` ADD I, Vx (R202). -/
  | addI (x : Reg)
  /-- `Fx29` LD F, Vx (R204). -/
  | ldF (x : Reg)
  /-- `Fx33` LD B, Vx (R206). -/
  | ldB (x : Reg)
  /-- `Fx55` LD [I], Vx (R208). -/
  | ldIVx (x : Reg)
  /-- `Fx65` LD Vx, [I] (R210). -/
  | ldVxI (x : Reg)
  deriving DecidableEq, Repr

end Sys2Proof
end

