-- ==== Sys2Proof/WellFormed.lean ====
section
/-! DEFINITION. Which terms of Instr are instructions. The operand types admit exactly the values of their fields, so
one check is left: a SYS whose nnn is 0E0 or 0EE, since those words are CLS and RET (30_encoding.md R76). -/

namespace Sys2Proof

/-- `0nnn` with op ∉ {0x00E0, 0x00EE} (41_control_flow.md R130, 30_encoding.md R76). -/
def sysOperandOk (nnn : Addr) : Bool := nnn != 0x0E0#12 && nnn != 0x0EE#12

/-- The instruction is one that some word decodes to. -/
def Instr.wellFormed : Instr → Bool
  | .sys nnn => sysOperandOk nnn
  | .cls | .ret | .jp _ | .call _ | .seImm _ _ | .sneImm _ _ | .seReg _ _ | .ldImm _ _ | .addImm _ _
  | .ldReg _ _ | .orReg _ _ | .andReg _ _ | .xorReg _ _ | .addReg _ _ | .sub _ _ | .shr _ _ | .subn _ _
  | .shl _ _ | .sneReg _ _ | .ldI _ | .jpV0 _ | .rnd _ _ | .drw _ _ _ | .skp _ | .sknp _ | .ldVxDt _
  | .ldVxK _ | .ldDtVx _ | .addI _ | .ldF _ | .ldB _ | .ldIVx _ | .ldVxI _ => true

end Sys2Proof
end

