-- ==== Sys2Proof/Decode.lean ====
section
/-! DEFINITION. The decoder of 30_encoding.md R77, total on words and on byte strings, rejecting by name, and after it
the encoder, written from the formats of R72. -/

namespace Sys2Proof

/-! ## Fields of an opcode (30_encoding.md R71) -/

/-- c = op[15:12]. -/
def opClass (op : Word) : Nibble := op.extractLsb' 12 4

/-- A 4-bit field as a register index (30_encoding.md R74). -/
def regOfNibble (b : Nibble) : Reg := ⟨b.toNat, b.isLt⟩

/-- x = op[11:8]. -/
def fieldX (op : Word) : Reg := regOfNibble (op.extractLsb' 8 4)

/-- y = op[7:4]. -/
def fieldY (op : Word) : Reg := regOfNibble (op.extractLsb' 4 4)

/-- n = op[3:0]. -/
def fieldN (op : Word) : Nibble := op.extractLsb' 0 4

/-- kk = op[7:0]. -/
def fieldKK (op : Word) : Byte := op.extractLsb' 0 8

/-- nnn = op[11:0]. -/
def fieldNNN (op : Word) : Addr := op.extractLsb' 0 12

/-! ## The decoder -/

/-- What a 16-bit word decodes to (30_encoding.md R77). -/
inductive Decoded where
  /-- The word matches the row of this instruction. -/
  | instr (i : Instr)
  /-- The word matches no row (30_encoding.md R80). -/
  | unmatched
  deriving DecidableEq, Repr

/-- Class 0: CLS and RET before SYS (30_encoding.md R76). -/
def decodeClass0 (op : Word) : Decoded :=
  if op = 0x00E0#16 then .instr .cls
  else if op = 0x00EE#16 then .instr .ret
  else .instr (.sys (fieldNNN op))

/-- Class 8, by the low nibble (30_encoding.md R77). -/
def decodeClass8 (op : Word) : Decoded :=
  match (fieldN op).toNat with
  | 0x0 => .instr (.ldReg (fieldX op) (fieldY op))
  | 0x1 => .instr (.orReg (fieldX op) (fieldY op))
  | 0x2 => .instr (.andReg (fieldX op) (fieldY op))
  | 0x3 => .instr (.xorReg (fieldX op) (fieldY op))
  | 0x4 => .instr (.addReg (fieldX op) (fieldY op))
  | 0x5 => .instr (.sub (fieldX op) (fieldY op))
  | 0x6 => .instr (.shr (fieldX op) (fieldY op))
  | 0x7 => .instr (.subn (fieldX op) (fieldY op))
  | 0xE => .instr (.shl (fieldX op) (fieldY op))
  | _ => .unmatched

/-- Class E, by the low byte (30_encoding.md R77). -/
def decodeClassE (op : Word) : Decoded :=
  match (fieldKK op).toNat with
  | 0x9E => .instr (.skp (fieldX op))
  | 0xA1 => .instr (.sknp (fieldX op))
  | _ => .unmatched

/-- Class F, by the low byte (30_encoding.md R77). -/
def decodeClassF (op : Word) : Decoded :=
  match (fieldKK op).toNat with
  | 0x07 => .instr (.ldVxDt (fieldX op))
  | 0x0A => .instr (.ldVxK (fieldX op))
  | 0x15 => .instr (.ldDtVx (fieldX op))
  | 0x1E => .instr (.addI (fieldX op))
  | 0x29 => .instr (.ldF (fieldX op))
  | 0x33 => .instr (.ldB (fieldX op))
  | 0x55 => .instr (.ldIVx (fieldX op))
  | 0x65 => .instr (.ldVxI (fieldX op))
  | _ => .unmatched

/-- `decode(op)` (30_encoding.md R77). The last line is never reached: a nibble is below 16. -/
def decode (op : Word) : Decoded :=
  match (opClass op).toNat with
  | 0x0 => decodeClass0 op
  | 0x1 => .instr (.jp (fieldNNN op))
  | 0x2 => .instr (.call (fieldNNN op))
  | 0x3 => .instr (.seImm (fieldX op) (fieldKK op))
  | 0x4 => .instr (.sneImm (fieldX op) (fieldKK op))
  | 0x5 => if fieldN op = 0#4 then .instr (.seReg (fieldX op) (fieldY op)) else .unmatched
  | 0x6 => .instr (.ldImm (fieldX op) (fieldKK op))
  | 0x7 => .instr (.addImm (fieldX op) (fieldKK op))
  | 0x8 => decodeClass8 op
  | 0x9 => if fieldN op = 0#4 then .instr (.sneReg (fieldX op) (fieldY op)) else .unmatched
  | 0xA => .instr (.ldI (fieldNNN op))
  | 0xB => .instr (.jpV0 (fieldNNN op))
  | 0xC => .instr (.rnd (fieldX op) (fieldKK op))
  | 0xD => .instr (.drw (fieldX op) (fieldY op) (fieldN op))
  | 0xE => decodeClassE op
  | 0xF => decodeClassF op
  | _ => .unmatched

/-- Big-endian: the byte at the lower address is the high byte (20_memory.md R52). -/
def wordOfBytes (hi lo : Byte) : Word := hi.setWidth 16 <<< 8 ||| lo.setWidth 16

/-- The high byte of a word. -/
def hiByte (w : Word) : Byte := w.extractLsb' 8 8

/-- The low byte of a word. -/
def loByte (w : Word) : Byte := w.extractLsb' 0 8

/-- What a string of bytes decodes to. -/
inductive DecodedBytes where
  /-- An instruction, and the bytes after its two (30_encoding.md R70). -/
  | instr (i : Instr) (rest : List Byte)
  /-- The first two bytes are a word that matches no row (30_encoding.md R80). -/
  | unmatched (op : Word)
  /-- Fewer than two bytes: no whole word. -/
  | truncated
  deriving DecidableEq, Repr

/-- Decoding any bytes; exactly two are consumed (30_encoding.md R70, R83). -/
def decodeBytes : List Byte → DecodedBytes
  | hi :: lo :: rest =>
    match decode (wordOfBytes hi lo) with
    | .instr i => .instr i rest
    | .unmatched => .unmatched (wordOfBytes hi lo)
  | [_] => .truncated
  | [] => .truncated

/-- The two bytes of a word as memory holds them, the first at the lowest address (20_memory.md R52). -/
def bytesOfWord (w : Word) : List Byte := [hiByte w, loByte w]

/-- The instruction the decoder reads from an instruction whose bits are w, as spec/opcode_table.json numbers
them. Every row has 16 bits, so the bits above are no part of the instruction and `nbits` decides nothing. -/
def decodeTableWord (_nbits w : Nat) : Option Instr :=
  match decodeBytes (bytesOfWord (BitVec.ofNat 16 w)) with
  | .instr i _ => some i
  | .unmatched _ => none
  | .truncated => none

/-! ## The encoder: the formats of 30_encoding.md R72 -/

/-- A register index as a 4-bit field. -/
def nibbleOfReg (r : Reg) : Nibble := BitVec.ofNat 4 r.val

/-- Format NNN. -/
def formatNNN (c : Nibble) (nnn : Addr) : Word := c.setWidth 16 <<< 12 ||| nnn.setWidth 16

/-- Format XKK; format XFF is the same layout with a fixed low byte. -/
def formatXKK (c : Nibble) (x : Reg) (kk : Byte) : Word :=
  c.setWidth 16 <<< 12 ||| (nibbleOfReg x).setWidth 16 <<< 8 ||| kk.setWidth 16

/-- Format XYN; format XYF is the same layout with a fixed low nibble. -/
def formatXYN (c : Nibble) (x y : Reg) (n : Nibble) : Word :=
  c.setWidth 16 <<< 12 ||| (nibbleOfReg x).setWidth 16 <<< 8 ||| (nibbleOfReg y).setWidth 16 <<< 4 |||
    n.setWidth 16

/-- The word of an instruction, from the patterns of 30_encoding.md R75. -/
def encode : Instr → Word
  | .cls => 0x00E0#16
  | .ret => 0x00EE#16
  | .sys nnn => formatNNN 0x0 nnn
  | .jp nnn => formatNNN 0x1 nnn
  | .call nnn => formatNNN 0x2 nnn
  | .seImm x kk => formatXKK 0x3 x kk
  | .sneImm x kk => formatXKK 0x4 x kk
  | .seReg x y => formatXYN 0x5 x y 0x0
  | .ldImm x kk => formatXKK 0x6 x kk
  | .addImm x kk => formatXKK 0x7 x kk
  | .ldReg x y => formatXYN 0x8 x y 0x0
  | .orReg x y => formatXYN 0x8 x y 0x1
  | .andReg x y => formatXYN 0x8 x y 0x2
  | .xorReg x y => formatXYN 0x8 x y 0x3
  | .addReg x y => formatXYN 0x8 x y 0x4
  | .sub x y => formatXYN 0x8 x y 0x5
  | .shr x y => formatXYN 0x8 x y 0x6
  | .subn x y => formatXYN 0x8 x y 0x7
  | .shl x y => formatXYN 0x8 x y 0xE
  | .sneReg x y => formatXYN 0x9 x y 0x0
  | .ldI nnn => formatNNN 0xA nnn
  | .jpV0 nnn => formatNNN 0xB nnn
  | .rnd x kk => formatXKK 0xC x kk
  | .drw x y n => formatXYN 0xD x y n
  | .skp x => formatXKK 0xE x 0x9E
  | .sknp x => formatXKK 0xE x 0xA1
  | .ldVxDt x => formatXKK 0xF x 0x07
  | .ldVxK x => formatXKK 0xF x 0x0A
  | .ldDtVx x => formatXKK 0xF x 0x15
  | .addI x => formatXKK 0xF x 0x1E
  | .ldF x => formatXKK 0xF x 0x29
  | .ldB x => formatXKK 0xF x 0x33
  | .ldIVx x => formatXKK 0xF x 0x55
  | .ldVxI x => formatXKK 0xF x 0x65

end Sys2Proof
end

