-- ==== Sys2Proof/Config.lean ====
section
/-! DEFINITION. What an implementation fixes, and the free values. The parameters of 00_scope.md R9 to R11 and of
43_alu.md R188, each as the set of values the spec allows. The value this model takes for each is chosen in
Machine/Params.lean. -/

namespace Sys2Proof.Config

/-- The two addresses the spec allows for the font table (00_scope.md R9). -/
inductive FontBase where
  /-- 0x000, "by convention"; the value the spec takes. -/
  | conventional
  /-- 0x050, "also accepted". -/
  | alternate
  deriving DecidableEq, Repr

/-- `FONT_BASE` as an address (00_scope.md R9). -/
def FontBase.addr : FontBase → Nat
  | .conventional => 0x000
  | .alternate => 0x050

/-- The default of `FONT_DATA`: 16 glyphs of 5 rows, top row first (10_state.md R40).
PRESUMED: the spec takes these bytes from general knowledge (93_implementation_defined.md G1); log 4. -/
def defaultFont : Vector Byte 80 :=
  #v[0xF0, 0x90, 0x90, 0x90, 0xF0, 0x20, 0x60, 0x20, 0x20, 0x70,
     0xF0, 0x10, 0xF0, 0x80, 0xF0, 0xF0, 0x10, 0xF0, 0x10, 0xF0,
     0x90, 0x90, 0xF0, 0x10, 0x10, 0xF0, 0x80, 0xF0, 0x10, 0xF0,
     0xF0, 0x80, 0xF0, 0x90, 0xF0, 0xF0, 0x10, 0x20, 0x40, 0x40,
     0xF0, 0x90, 0xF0, 0x90, 0xF0, 0xF0, 0x90, 0xF0, 0x10, 0xF0,
     0xF0, 0x90, 0xF0, 0x90, 0x90, 0xE0, 0x90, 0xE0, 0x90, 0xE0,
     0xF0, 0x80, 0x80, 0x80, 0xF0, 0xE0, 0x90, 0x90, 0x90, 0xE0,
     0xF0, 0x80, 0xF0, 0x80, 0xF0, 0xF0, 0x80, 0xF0, 0x80, 0x80]

/-- The three readings of an instruction that writes VF as a flag and names it as an operand
(43_alu.md R188, parameter `VF_ORDER`). -/
inductive VfOrder where
  /-- Each statement reads the state left by the statements before it; the spec's choice (D10). -/
  | sequential
  /-- All operands are read first; the flag is written, then the result. -/
  | snapshot
  /-- All operands are read first; the result is written, then the flag. -/
  | flagLast
  deriving DecidableEq, Repr

/-- The FREE VALUE `RAND`: the byte the external source returns on its n-th `next_byte()` call
(00_scope.md R11, 43_alu.md R186). It has no body, so nothing can be proved of its values; log 2. -/
opaque randByte : Nat → Byte

end Sys2Proof.Config
end

