-- ==== Sys2Proof/Machine/Params.lean ====
section
/-! DEFINITION. The value this model takes for each parameter of Config.lean: the spec's own defaults. The operations
that depend on a parameter take it as an argument (Ops.lean, Operands.lean, Flags.lean), so that they can be read at
every allowed value. -/

namespace Sys2Proof.Machine

/-- `FONT_BASE = 0x000` (00_scope.md R9, decision D2). DESIGN CHOICE, log 3. -/
def fontBase : Config.FontBase := .conventional

/-- `FONT_DATA`, the spec's default (10_state.md R40, decision D3). PRESUMED, log 4. -/
def fontData : Vector Byte 80 := Config.defaultFont

/-- `VF_ORDER = sequential` (43_alu.md R188, decision D10). DESIGN CHOICE, log 5. -/
def vfOrder : Config.VfOrder := .sequential

end Sys2Proof.Machine
end

