-- ==== Sys2Proof/Machine/State.lean ====
section
/-! DEFINITION. The state of the core (10_state.md), as plain data, the host's transactions (40_cycle_and_interface.md
R100), and the reasons a step can stop. -/

namespace Sys2Proof.Machine

/-- Memory: the bytes that differ from the reset contents, addresses strictly rising (10_state.md R38; log 24).
What an unlisted address reads as is `Memory.initial` of Machine/Ops.lean. -/
abbrev Memory := List Host.Cell

/-- The 64×32 monochrome framebuffer: 32 rows of 64 pixels, true where the pixel is 1 (10_state.md R30; log 20). -/
abbrev Framebuffer := Vector (Vector Bool 64) 32

/-- The kinds of fatal error (60_exceptions.md R284). They are recorded in State: entering Faulted is a next state. -/
inductive FaultKind where
  /-- CALL with SP = 16 (R281). -/
  | stackOverflow
  /-- RET with SP = 0 (R282). -/
  | stackUnderflow
  /-- A fetched word that matches no row (R280). -/
  | unknownOpcode
  deriving DecidableEq, Repr

/-- What a fault retains: kind, opcode and fetch address (10_state.md R35, 60_exceptions.md R284). -/
structure FaultRec where
  kind : FaultKind
  opcode : Word
  pc : Word
  deriving DecidableEq, Repr

/-- The transactions of the interface (40_cycle_and_interface.md R100). -/
inductive Transaction where
  | reset
  | loadProgram (bytes : List Byte)
  | executeCycle
  | decrementTimers
  | keyDown (i : Byte)
  | keyUp (i : Byte)
  | getMemory
  | getDisplay
  | getRegisterV
  | getRegisterI
  | getRegisterPc
  | isFaulted
  deriving DecidableEq, Repr

/-- The state of the core (10_state.md section 1), then the model's own two fields. -/
structure State where
  /-- `Mem` (R38). -/
  mem : Memory
  /-- `V[0]` to `V[15]` (R20). -/
  v : Vector Byte 16
  /-- `I` (R26). -/
  i : Word
  /-- `PC` (R23, R25). -/
  pc : Word
  /-- `SP`, the count of occupied slots, 0 to 16 (R27). -/
  sp : Fin 17
  /-- `Stack[0]` to `Stack[15]` (R28). -/
  stack : Vector Word 16
  /-- `DT` (R29). -/
  dt : Byte
  /-- `FB` (R30). -/
  fb : Framebuffer
  /-- `Key[0]` to `Key[15]`, true where the key is down (R31). -/
  keys : Vector Bool 16
  /-- `Latch` (R32). -/
  latch : Option Reg
  /-- `PendingKey` (R33). -/
  pendingKey : Option KeyIx
  /-- `Faulted` (R35). -/
  faulted : Bool
  /-- `FaultRec` (R35). -/
  faultRec : Option FaultRec
  /-- The model's own: how many random bytes have been consumed; the next one is
  `Config.randByte rndCount` (00_scope.md R11; log 2). -/
  rndCount : Nat
  /-- The model's own: the transactions the host invokes next, in order; when it is empty the host
  invokes `execute_cycle` (00_scope.md R6, R7; log 1). -/
  schedule : List Transaction
  deriving DecidableEq, Repr

/-- The state right after reset, which is also the state at construction (10_state.md R41, 70_reset_and_hazards.md
R311). Memory lists nothing: it holds its reset contents. PC, I, the keypad and PendingKey are the spec's decisions D4,
D5 and D6 (log 6); the two fields of the model's own are DESIGN CHOICE (log 1, log 2). -/
def State.reset : State where
  mem := []
  v := Vector.replicate 16 0
  i := 0
  pc := 0x200
  sp := 0
  stack := Vector.replicate 16 0
  dt := 0
  fb := Vector.replicate 32 (Vector.replicate 64 false)
  keys := Vector.replicate 16 false
  latch := none
  pendingKey := none
  faulted := false
  faultRec := none
  rndCount := 0
  schedule := []

/-- The reasons the machine can stop with a fault. It has no constructor: no step of this core stops. A fatal error
latches the Faulted state, which is a next state (60_exceptions.md R283), no other exception exists (R286), and no
behaviour of the core is stuck (93_implementation_defined.md section 1; log 8). -/
inductive Fault where
  deriving DecidableEq, Repr

/-- The reasons the model can refuse an instruction. -/
inductive Refusal where
  /-- Raised only by an arm of `exec` whose instruction has no meaning yet; no arm of this model is one. Safe. -/
  | notModelled (mnemonic : String)
  deriving DecidableEq, Repr

end Sys2Proof.Machine
end

