-- ==== Sys2Proof/Machine/Ops.lean ====
section
/-! DEFINITION. The named operations over memory, the registers, the stack and the framebuffer; fault entry, and the
reset that is the only way out of it. -/

namespace Sys2Proof.Machine

/-! ## Memory (20_memory.md) -/

/-- The number of bytes of memory (20_memory.md R50). -/
def memorySize : Nat := 4096

/-- The reset contents at an address, for a given font table and place: `FONT_DATA` at `FONT_BASE` to
`FONT_BASE + 79`, 0 elsewhere (10_state.md R41). -/
def Memory.initialWith (base : Config.FontBase) (font : Vector Byte 80) (a : Nat) : Byte :=
  if h : base.addr ≤ a ∧ a < base.addr + 80 then font[a - base.addr]'(by omega) else 0#8

/-- What an unlisted address reads as: the reset contents (10_state.md R41; log 24). -/
def Memory.initial (a : Nat) : Byte := Memory.initialWith fontBase fontData a

/-- The byte at an address: the listed one, else the reset contents. The list rises, so the search ends at the first
entry that is not below the address. -/
def Memory.read : Memory → Nat → Byte
  | [], a => Memory.initial a
  | (c, b) :: rest, a => if c < a then Memory.read rest a else if c = a then b else Memory.initial a

/-- Lists a byte in front of the entries above it, unless it is what an unlisted address reads as. -/
def Memory.consCell (a : Nat) (b : Byte) (rest : Memory) : Memory :=
  if b = Memory.initial a then rest else (a, b) :: rest

/-- Writes one byte, keeping the canonical form. -/
def Memory.write : Memory → Nat → Byte → Memory
  | [], a, b => Memory.consCell a b []
  | (c, d) :: rest, a, b =>
    if c < a then (c, d) :: Memory.write rest a b
    else if c = a then Memory.consCell a b rest
    else Memory.consCell a b ((c, d) :: rest)

/-- Every listed address is at least `lo`, they rise strictly, each exists, and no entry equals the reset contents. -/
def Memory.wfFrom : Nat → Memory → Bool
  | _, [] => true
  | lo, (c, b) :: rest =>
    decide (lo ≤ c) && decide (c < memorySize) && (b != Memory.initial c) && Memory.wfFrom (c + 1) rest

/-- The canonical form (log 24): two well-formed memories that read alike are equal data. -/
def Memory.wf (m : Memory) : Bool := Memory.wfFrom 0 m

/-- `EA(k) = (I + k) mod 4096` (20_memory.md R54). -/
def effectiveAddress (i : Word) (k : Nat) : Nat := (i.toNat + k) % 4096

/-- `Fetch16(a)`: two bytes, each address reduced mod 4096, big-endian (20_memory.md R53). -/
def fetch16 (m : Memory) (a : Word) : Word :=
  wordOfBytes (m.read (a.toNat % 4096)) (m.read ((a.toNat + 1) % 4096))

/-- Stores one opcode where `fetch16` reads it (20_memory.md R53). -/
def storeWord (m : Memory) (a : Word) (op : Word) : Memory :=
  (m.write (a.toNat % 4096) (hiByte op)).write ((a.toNat + 1) % 4096) (loByte op)

/-- `MemRead(EA(k), 1)` (20_memory.md R55). -/
def State.readEA (s : State) (k : Nat) : Byte := s.mem.read (effectiveAddress s.i k)

/-- `MemWrite(EA(k), 1, b)` (20_memory.md R55). -/
def State.writeEA (s : State) (k : Nat) (b : Byte) : State :=
  { s with mem := s.mem.write (effectiveAddress s.i k) b }

/-! ## Registers -/

/-- `V[r]` (00_scope.md R14). -/
def State.readReg (s : State) (r : Reg) : Byte := s.v[r]

/-- `V[r] <- b` (00_scope.md R14). -/
def State.writeReg (s : State) (r : Reg) (b : Byte) : State := { s with v := s.v.set r b }

/-- VF is `V[0xF]` (10_state.md R21). -/
def vf : Reg := 15

/-- `I <- w`. -/
def State.writeI (s : State) (w : Word) : State := { s with i := w }

/-- `PC <- w`. -/
def State.writePc (s : State) (w : Word) : State := { s with pc := w }

/-- `PC <- (PC + 2) mod 65536`: the advance of a cycle (40_cycle_and_interface.md R104) and a taken skip (42_skips.md). -/
def State.advance (s : State) : State := s.writePc (s.pc + 2#16)

/-- `DT <- b`. -/
def State.writeDt (s : State) (b : Byte) : State := { s with dt := b }

/-! ## The return stack (10_state.md R27, R28) -/

/-- `Stack[SP] <- PC; SP <- SP + 1`, where a slot is free. -/
def State.pushPc (s : State) (free : s.sp.val < 16) : State :=
  { s with stack := s.stack.set s.sp.val s.pc free, sp := ⟨s.sp.val + 1, by omega⟩ }

/-- `SP <- SP − 1; PC <- Stack[SP]`, where a slot is occupied. The slot keeps its value. -/
def State.popPc (s : State) (occupied : 0 < s.sp.val) : State :=
  { s with sp := ⟨s.sp.val - 1, by omega⟩, pc := s.stack[s.sp.val - 1]'(by omega) }

/-! ## Taking a fault, and the only way out of it (60_exceptions.md) -/

/-- `raise Fault(kind)` in a cycle with fetch address a and word op (60_exceptions.md R283). -/
def State.raiseFault (s : State) (kind : FaultKind) (op a : Word) : State :=
  { s with faulted := true, faultRec := some { kind := kind, opcode := op, pc := a } }

/-- The fetch address of the cycle, seen from a body: PC is a + 2 there (10_state.md R23). -/
def State.fetchAddress (s : State) : Word := s.pc - 2#16

/-- `raise Fault(kind)` from the body of an instruction: its word is its encoding (log 9). -/
def State.bodyFault (s : State) (kind : FaultKind) (i : Instr) : State :=
  s.raiseFault kind (encode i) s.fetchAddress

/-- `reset()` (70_reset_and_hazards.md R310). It touches neither the external byte source (R314) nor the order
the host has chosen, which are no state of the core. -/
def State.resetCore (s : State) : State :=
  { State.reset with rndCount := s.rndCount, schedule := s.schedule }

/-- The number of a fault kind (60_exceptions.md R284). -/
def FaultKind.code : FaultKind → Nat
  | .stackOverflow => 1
  | .stackUnderflow => 2
  | .unknownOpcode => 3

/-- The recorded fault's number; 0 means no fault (60_exceptions.md R284). -/
def State.faultCode (s : State) : Nat :=
  match s.faultRec with
  | none => 0
  | some r => r.kind.code

/-- The run state (10_state.md R34). -/
inductive RunState where
  | running
  | waitingKey
  | faulted
  deriving DecidableEq, Repr

/-- Faulted first, then WaitingKey, otherwise Running (10_state.md R34). -/
def State.runState (s : State) : RunState :=
  if s.faulted then .faulted else if s.latch.isSome then .waitingKey else .running

/-! ## The random byte (43_alu.md R186) -/

/-- `RandByte()`: the byte the source gives for the next call. -/
def State.nextRandom (s : State) : Byte := Config.randByte s.rndCount

/-- One `next_byte()` call has been made. -/
def State.consumeRandom (s : State) : State := { s with rndCount := s.rndCount + 1 }

/-! ## The framebuffer (10_state.md R30, 46_display.md) -/

/-- `FB[x, y]`. -/
def Framebuffer.pixel (fb : Framebuffer) (x : Fin 64) (y : Fin 32) : Bool := fb[y][x]

/-- `FB[x, y] <- FB[x, y] ^ 1`. -/
def Framebuffer.flip (fb : Framebuffer) (x : Fin 64) (y : Fin 32) : Framebuffer :=
  fb.set y (fb[y].set x (!fb[y][x]))

/-- Every pixel 0 (46_display.md R250). -/
def Framebuffer.clear : Framebuffer := Vector.replicate 32 (Vector.replicate 64 false)

/-- The column of a sprite bit: `(px + j) mod 64` (46_display.md R252). -/
def wrapColumn (px : Byte) (j : Nat) : Fin 64 := ⟨(px.toNat + j) % 64, Nat.mod_lt _ (by decide)⟩

/-- The row of a sprite byte: `(py + i) mod 32` (46_display.md R252). -/
def wrapRow (py : Byte) (i : Nat) : Fin 32 := ⟨(py.toNat + i) % 32, Nat.mod_lt _ (by decide)⟩

/-- The blitter's working pair: the framebuffer, and `coll`. -/
abbrev Blit := Framebuffer × Bool

/-- One 1 bit of a sprite: `coll := coll | FB[cx, cy]; FB[cx, cy] <- FB[cx, cy] ^ 1` (46_display.md R252). -/
def blitBit (cx : Fin 64) (cy : Fin 32) (acc : Blit) : Blit :=
  (Framebuffer.flip acc.1 cx cy, acc.2 || Framebuffer.pixel acc.1 cx cy)

/-- One row of a sprite, most significant bit first (46_display.md R252). -/
def blitRow (px py : Byte) (i : Nat) (row : Byte) (acc : Blit) : Blit :=
  (List.range 8).foldl
    (fun acc j => if row.getLsbD (7 - j) then blitBit (wrapColumn px j) (wrapRow py i) acc else acc) acc

/-- The rows of a sprite, in order (46_display.md R252). -/
def blit (px py : Byte) (rows : List Byte) (i : Nat) (acc : Blit) : Blit :=
  match rows with
  | [] => acc
  | row :: rest => blit px py rest (i + 1) (blitRow px py i row acc)

end Sys2Proof.Machine
end

