-- ==== Sys2Proof/Machine/Flags.lean ====
section
/-! DEFINITION. The flag computations of 43_alu.md, and the order in which a flag and a result are written
(R188). The only flag is VF (10_state.md R36). -/

namespace Sys2Proof.Machine

/-- A condition as the byte VF receives: 1 for true, 0 for false (00_scope.md R12). -/
def flagByte (c : Bool) : Byte := if c then 1#8 else 0#8

/-- 8xy4: `sum > 255`, the carry out of bit 7 (43_alu.md R176). -/
def carryFlag (a b : Byte) : Bool := decide (255 < a.toNat + b.toNat)

/-- 8xy5 and 8xy7: no borrow, `a ≥ b` (43_alu.md R177, R179). -/
def noBorrowFlag (a b : Byte) : Bool := decide (b.toNat ≤ a.toNat)

/-- 8xy6: the bit a right shift moves out (43_alu.md R178). -/
def shiftRightFlag (a : Byte) : Bool := a.getLsbD 0

/-- 8xyE: the bit a left shift moves out (43_alu.md R180). -/
def shiftLeftFlag (a : Byte) : Bool := a.getLsbD 7

/-- `V[x] op V[y]` as the pseudocode of one statement: both registers are read in the state at hand. -/
def State.binary (s : State) (op : Byte → Byte → Byte) (x y : Reg) : Byte := op (s.readReg x) (s.readReg y)

/-- `VF <- flag(V[x], V[y]); V[x] <- result(V[x], V[y])` under each reading of R188, where the second statement
names the registers themselves (8xy5, 8xy6, 8xy7, 8xyE). -/
def State.flagAndResult (s : State) (order : Config.VfOrder) (flag : Byte → Byte → Bool)
    (result : Byte → Byte → Byte) (x y : Reg) : State :=
  let f := flagByte (flag (s.readReg x) (s.readReg y))
  match order with
  | .sequential => (s.writeReg vf f).writeReg x ((s.writeReg vf f).binary result x y)
  | .snapshot => (s.writeReg vf f).writeReg x (s.binary result x y)
  | .flagLast => (s.writeReg x (s.binary result x y)).writeReg vf f

/-- `r := result(V[x], V[y]); VF <- flag(V[x], V[y]); V[x] <- r` under each reading of R188: the result is bound
to a temporary before the flag is written (8xy4, whose first statement is `sum := V[x] + V[y]`). -/
def State.boundResultAndFlag (s : State) (order : Config.VfOrder) (flag : Byte → Byte → Bool)
    (result : Byte → Byte → Byte) (x y : Reg) : State :=
  let f := flagByte (flag (s.readReg x) (s.readReg y))
  match order with
  | .sequential => (s.writeReg vf f).writeReg x (s.binary result x y)
  | .snapshot => (s.writeReg vf f).writeReg x (s.binary result x y)
  | .flagLast => (s.writeReg x (s.binary result x y)).writeReg vf f

/-- 8xy4 under a reading of R188 (43_alu.md R176). -/
def State.addFlagged (s : State) (order : Config.VfOrder) (x y : Reg) : State :=
  s.boundResultAndFlag order carryFlag (fun a b => a + b) x y

/-- 8xy5 under a reading of R188 (43_alu.md R177). -/
def State.subFlagged (s : State) (order : Config.VfOrder) (x y : Reg) : State :=
  s.flagAndResult order noBorrowFlag (fun a b => a - b) x y

/-- 8xy6 under a reading of R188; y is ignored (43_alu.md R178). -/
def State.shrFlagged (s : State) (order : Config.VfOrder) (x : Reg) : State :=
  s.flagAndResult order (fun a _ => shiftRightFlag a) (fun a _ => a >>> 1) x x

/-- 8xy7 under a reading of R188 (43_alu.md R179). -/
def State.subnFlagged (s : State) (order : Config.VfOrder) (x y : Reg) : State :=
  s.flagAndResult order (fun a b => noBorrowFlag b a) (fun a b => b - a) x y

/-- 8xyE under a reading of R188; y is ignored (43_alu.md R180). -/
def State.shlFlagged (s : State) (order : Config.VfOrder) (x : Reg) : State :=
  s.flagAndResult order (fun a _ => shiftLeftFlag a) (fun a _ => a <<< 1) x x

end Sys2Proof.Machine
end

