-- ==== Sys2Proof/Machine/Operands.lean ====
section
/-! DEFINITION. The operand forms of 30_encoding.md R73 and R74. Register operands are `State.readReg` and
`State.writeReg`, immediates are `zextByte` and `zextAddr`; here are the other forms. -/

namespace Sys2Proof.Machine

/-- The key index `V[x] & 0xF` (30_encoding.md R74; Ex9E and ExA1). -/
def keyIndex (b : Byte) : KeyIx := regOfNibble (b.extractLsb' 0 4)

/-- `Key[i]`. -/
def State.keyDownAt (s : State) (i : KeyIx) : Bool := s.keys[i]

/-- A key index as the byte a register receives (40_cycle_and_interface.md R105). -/
def byteOfKey (k : KeyIx) : Byte := BitVec.ofNat 8 k.val

/-- The glyph index `V[x] & 0xF` (30_encoding.md R74; Fx29). -/
def glyphIndex (b : Byte) : Nat := (b &&& 0x0F#8).toNat

/-- `FONT_BASE + 5 · (V[x] & 0xF)`, for a given `FONT_BASE` (44_index_memory.md R204). -/
def glyphAddress (base : Config.FontBase) (b : Byte) : Word := BitVec.ofNat 16 (base.addr + 5 * glyphIndex b)

/-- The register block `V[0]` to `V[x]`, ascending (30_encoding.md R74; Fx55 and Fx65). -/
def blockRegs (x : Reg) : List Reg := (List.finRange 16).take (x.val + 1)

/-- `for k in 0 .. x: MemWrite(EA(k), 1, V[k])` (44_index_memory.md R208). -/
def State.storeBlock (s : State) (x : Reg) : State :=
  (blockRegs x).foldl (fun s k => s.writeEA k.val (s.readReg k)) s

/-- `for k in 0 .. x: V[k] <- MemRead(EA(k), 1)` (44_index_memory.md R210). -/
def State.loadBlock (s : State) (x : Reg) : State :=
  (blockRegs x).foldl (fun s k => s.writeReg k (s.readEA k.val)) s

/-- The bytes `MemRead(EA(0), 1)` to `MemRead(EA(n−1), 1)`: the rows of a sprite (46_display.md R252). -/
def State.spriteRows (s : State) (n : Nat) : List Byte := (List.range n).map s.readEA

/-- The decimal digits of a byte, hundreds first (44_index_memory.md R206). -/
def hundreds (b : Byte) : Byte := b / 100#8

/-- The tens digit (44_index_memory.md R206). -/
def tens (b : Byte) : Byte := b / 10#8 % 10#8

/-- The ones digit (44_index_memory.md R206). -/
def ones (b : Byte) : Byte := b % 10#8

/-- A conditional skip: `if cond: PC <- (PC + 2) mod 65536` (42_skips.md). -/
def State.skipIf (s : State) (cond : Bool) : State := if cond then s.advance else s

end Sys2Proof.Machine
end

