-- ==== Sys2Proof/Machine/Alu.lean ====
section
/-! DEFINITION. 43_alu.md: register loads, arithmetic, logic, shifts, RND. -/

namespace Sys2Proof.Machine

/-- LD Vx, kk (R170). -/
def execLdImm (x : Reg) (kk : Byte) (s : State) : Host.Outcome State Fault Refusal := .next (s.writeReg x kk)

/-- ADD Vx, kk: wraps, VF is no flag here (R171). -/
def execAddImm (x : Reg) (kk : Byte) (s : State) : Host.Outcome State Fault Refusal :=
  .next (s.writeReg x (s.readReg x + kk))

/-- LD Vx, Vy (R172). -/
def execLdReg (x y : Reg) (s : State) : Host.Outcome State Fault Refusal := .next (s.writeReg x (s.readReg y))

/-- OR Vx, Vy; VF unchanged (R173). -/
def execOrReg (x y : Reg) (s : State) : Host.Outcome State Fault Refusal :=
  .next (s.writeReg x (s.binary (fun a b => a ||| b) x y))

/-- AND Vx, Vy; VF unchanged (R174). -/
def execAndReg (x y : Reg) (s : State) : Host.Outcome State Fault Refusal :=
  .next (s.writeReg x (s.binary (fun a b => a &&& b) x y))

/-- XOR Vx, Vy; VF unchanged (R175). -/
def execXorReg (x y : Reg) (s : State) : Host.Outcome State Fault Refusal :=
  .next (s.writeReg x (s.binary (fun a b => a ^^^ b) x y))

/-- ADD Vx, Vy with the carry in VF (R176, R188). -/
def execAddReg (x y : Reg) (s : State) : Host.Outcome State Fault Refusal := .next (s.addFlagged vfOrder x y)

/-- SUB Vx, Vy with no borrow in VF (R177, R188). -/
def execSub (x y : Reg) (s : State) : Host.Outcome State Fault Refusal := .next (s.subFlagged vfOrder x y)

/-- SHR Vx, y ignored (R178, R188). -/
def execShr (x _y : Reg) (s : State) : Host.Outcome State Fault Refusal := .next (s.shrFlagged vfOrder x)

/-- SUBN Vx, Vy with no borrow in VF (R179, R188). -/
def execSubn (x y : Reg) (s : State) : Host.Outcome State Fault Refusal := .next (s.subnFlagged vfOrder x y)

/-- SHL Vx, y ignored (R180, R188). -/
def execShl (x _y : Reg) (s : State) : Host.Outcome State Fault Refusal := .next (s.shlFlagged vfOrder x)

/-- The effect of RND on a given random byte: the call is counted and `V[x] <- r & kk` (R186). -/
def State.randomInto (s : State) (r : Byte) (x : Reg) (kk : Byte) : State :=
  s.consumeRandom.writeReg x (r &&& kk)

/-- RND Vx, kk: one byte is consumed, whatever kk is (R186). -/
def execRnd (x : Reg) (kk : Byte) (s : State) : Host.Outcome State Fault Refusal :=
  .next (s.randomInto s.nextRandom x kk)

end Sys2Proof.Machine
end

