-- ==== Sys2Proof/Machine/ControlFlow.lean ====
section
/-! DEFINITION. 41_control_flow.md: SYS, RET, JP, CALL, JP V0. Each body runs with PC already at a + 2. -/

namespace Sys2Proof.Machine

/-- SYS nnn: no operation (R130). -/
def execSys (_nnn : Addr) (s : State) : Host.Outcome State Fault Refusal := .next s

/-- RET: StackUnderflow when SP = 0, else pop (R131). -/
def execRet (s : State) : Host.Outcome State Fault Refusal :=
  if h : 0 < s.sp.val then .next (s.popPc h) else .next (s.bodyFault .stackUnderflow .ret)

/-- JP nnn (R132). -/
def execJp (nnn : Addr) (s : State) : Host.Outcome State Fault Refusal := .next (s.writePc (zextAddr nnn))

/-- CALL nnn: StackOverflow when SP = 16, else push a + 2 and jump (R133). -/
def execCall (nnn : Addr) (s : State) : Host.Outcome State Fault Refusal :=
  if h : s.sp.val < 16 then .next ((s.pushPc h).writePc (zextAddr nnn))
  else .next (s.bodyFault .stackOverflow (.call nnn))

/-- JP V0, nnn: the sum is not masked to 12 bits (R138). -/
def execJpV0 (nnn : Addr) (s : State) : Host.Outcome State Fault Refusal :=
  .next (s.writePc (zextAddr nnn + zextByte (s.readReg 0)))

end Sys2Proof.Machine
end

