-- ==== Sys2Proof/Machine/Display.lean ====
section
/-! DEFINITION. 46_display.md: CLS and DRW. -/

namespace Sys2Proof.Machine

/-- CLS; VF unchanged (R250). -/
def execCls (s : State) : Host.Outcome State Fault Refusal := .next { s with fb := Framebuffer.clear }

/-- The sprite of DRW drawn on the framebuffer at `(V[x], V[y])`, with its collision (R252). -/
def State.drawSprite (s : State) (x y : Reg) (n : Nibble) : Blit :=
  blit (s.readReg x) (s.readReg y) (s.spriteRows n.toNat) 0 (s.fb, false)

/-- DRW Vx, Vy, n: VF receives the collision after every pixel (R252, R253, R255). -/
def execDrw (x y : Reg) (n : Nibble) (s : State) : Host.Outcome State Fault Refusal :=
  .next (State.writeReg { s with fb := (s.drawSprite x y n).1 } vf (flagByte (s.drawSprite x y n).2))

end Sys2Proof.Machine
end

