-- ==== Sys2Proof/Machine/IndexMemory.lean ====
section
/-! DEFINITION. 44_index_memory.md: the index register and the memory transfers. -/

namespace Sys2Proof.Machine

/-- LD I, nnn (R200). -/
def execLdI (nnn : Addr) (s : State) : Host.Outcome State Fault Refusal := .next (s.writeI (zextAddr nnn))

/-- ADD I, Vx: 16-bit wrap, VF unchanged (R202). -/
def execAddI (x : Reg) (s : State) : Host.Outcome State Fault Refusal :=
  .next (s.writeI (s.i + zextByte (s.readReg x)))

/-- LD F, Vx (R204). -/
def execLdF (x : Reg) (s : State) : Host.Outcome State Fault Refusal :=
  .next (s.writeI (glyphAddress fontBase (s.readReg x)))

/-- LD B, Vx: the decimal digits to EA(0), EA(1), EA(2), hundreds first (R206). -/
def execLdB (x : Reg) (s : State) : Host.Outcome State Fault Refusal :=
  .next (((s.writeEA 0 (hundreds (s.readReg x))).writeEA 1 (tens (s.readReg x))).writeEA 2 (ones (s.readReg x)))

/-- LD [I], Vx: I is unchanged (R208). -/
def execLdIVx (x : Reg) (s : State) : Host.Outcome State Fault Refusal := .next (s.storeBlock x)

/-- LD Vx, [I]: I is unchanged (R210). -/
def execLdVxI (x : Reg) (s : State) : Host.Outcome State Fault Refusal := .next (s.loadBlock x)

end Sys2Proof.Machine
end

