-- ==== Sys2Proof/Machine/Skips.lean ====
section
/-! DEFINITION. 42_skips.md: SE, SNE, SKP, SKNP. -/

namespace Sys2Proof.Machine

/-- SE Vx, kk (R150). -/
def execSeImm (x : Reg) (kk : Byte) (s : State) : Host.Outcome State Fault Refusal :=
  .next (s.skipIf (s.readReg x == kk))

/-- SNE Vx, kk (R151). -/
def execSneImm (x : Reg) (kk : Byte) (s : State) : Host.Outcome State Fault Refusal :=
  .next (s.skipIf (s.readReg x != kk))

/-- SE Vx, Vy (R152). -/
def execSeReg (x y : Reg) (s : State) : Host.Outcome State Fault Refusal :=
  .next (s.skipIf (s.readReg x == s.readReg y))

/-- SNE Vx, Vy (R153). -/
def execSneReg (x y : Reg) (s : State) : Host.Outcome State Fault Refusal :=
  .next (s.skipIf (s.readReg x != s.readReg y))

/-- SKP Vx (R154). -/
def execSkp (x : Reg) (s : State) : Host.Outcome State Fault Refusal :=
  .next (s.skipIf (s.keyDownAt (keyIndex (s.readReg x))))

/-- SKNP Vx (R155). -/
def execSknp (x : Reg) (s : State) : Host.Outcome State Fault Refusal :=
  .next (s.skipIf (!s.keyDownAt (keyIndex (s.readReg x))))

end Sys2Proof.Machine
end

