-- ==== Sys2Proof/Machine/TimerKey.lean ====
section
/-! DEFINITION. 45_timer_key.md: the delay timer and the key wait. -/

namespace Sys2Proof.Machine

/-- LD Vx, DT (R230). -/
def execLdVxDt (x : Reg) (s : State) : Host.Outcome State Fault Refusal := .next (s.writeReg x s.dt)

/-- LD DT, Vx (R231). -/
def execLdDtVx (x : Reg) (s : State) : Host.Outcome State Fault Refusal := .next (s.writeDt (s.readReg x))

/-- `Latch <- some x; PendingKey <- none` (R232). -/
def State.beginWait (s : State) (x : Reg) : State := { s with latch := some x, pendingKey := none }

/-- LD Vx, K: this cycle completes, V[x] is not written yet (R232). -/
def execLdVxK (x : Reg) (s : State) : Host.Outcome State Fault Refusal := .next (s.beginWait x)

end Sys2Proof.Machine
end

