-- ==== Sys2Proof/Machine/Transactions.lean ====
section
/-! DEFINITION. The transactions of 40_cycle_and_interface.md: the cycle, the host's inputs, the program load and the
inspectors. -/

namespace Sys2Proof.Machine

/-! ## execute_cycle (R101) -/

/-- `V[t] <- k; Latch <- none; PendingKey <- none` (R105). PC is unchanged and no opcode runs. -/
def State.endWait (s : State) (t : Reg) (k : KeyIx) : State :=
  { s.writeReg t (byteOfKey k) with latch := none, pendingKey := none }

/-- Fetch, advance, decode, and the body or UnknownOpcode (R104, R106; 60_exceptions.md R280). -/
def runOpcode (s : State) : Host.Outcome State Fault Refusal :=
  match decode (fetch16 s.mem s.pc) with
  | .instr i => exec i s.advance
  | .unmatched => .next (s.advance.raiseFault .unknownOpcode (fetch16 s.mem s.pc) s.pc)

/-- `execute_cycle()`: Faulted first, then WaitingKey, then fetch (R101). -/
def executeCycle (s : State) : Host.Outcome State Fault Refusal :=
  if s.faulted then .next s
  else
    match s.latch, s.pendingKey with
    | some t, some k => .next (s.endWait t k)
    | some _, none => .next s
    | none, _ => runOpcode s

/-! ## Inputs (R110 to R112) -/

/-- The key a transaction's 8-bit argument names, if it is one of 0 to 15. -/
def keyOfByte (i : Byte) : Option KeyIx := if h : i.toNat < 16 then some ⟨i.toNat, h⟩ else none

/-- A key-down transition of key k: `Key[k] <- 1`, and the first one of a wait is recorded (R110). -/
def State.pressKey (s : State) (k : KeyIx) : State :=
  { s with
    keys := s.keys.set k true
    pendingKey := if s.latch.isSome && s.pendingKey.isNone then some k else s.pendingKey }

/-- `key_down(i)`: ignored above 15, and no transition where the key is down already (R110). -/
def State.keyDown (s : State) (i : Byte) : State :=
  match keyOfByte i with
  | none => s
  | some k => if s.keyDownAt k then s else s.pressKey k

/-- `key_up(i)`: ignored above 15; it does not clear PendingKey (R111). -/
def State.keyUp (s : State) (i : Byte) : State :=
  match keyOfByte i with
  | none => s
  | some k => { s with keys := s.keys.set k false }

/-- `decrement_timers()`: `if DT > 0 then DT <- DT − 1`, in every run state (R112). -/
def State.decrementTimers (s : State) : State := if s.dt = 0#8 then s else s.writeDt (s.dt - 1#8)

/-! ## Program load (R113) -/

/-- The address programs load at (00_scope.md R8). -/
def loadAddress : Nat := 0x200

/-- The largest program: 4096 − 0x200 bytes (00_scope.md R8). -/
def maxProgram : Nat := memorySize - loadAddress

/-- The result of `load_program` (R113). -/
inductive LoadResult where
  | ok
  | tooLarge
  deriving DecidableEq, Repr

/-- `ok`, or `too_large` when the length exceeds 3584 (R113). -/
def loadResult (bytes : List Byte) : LoadResult := if maxProgram < bytes.length then .tooLarge else .ok

/-- Writes the bytes at ascending addresses from a. -/
def Memory.writeBytes (m : Memory) (a : Nat) : List Byte → Memory
  | [] => m
  | b :: rest => Memory.writeBytes (m.write a b) (a + 1) rest

/-- `load_program(bytes)`: a load that is too large changes nothing (R113). -/
def State.loadProgram (s : State) (bytes : List Byte) : State :=
  match loadResult bytes with
  | .tooLarge => s
  | .ok => { s with mem := s.mem.writeBytes loadAddress bytes }

/-! ## Inspectors (R114) -/

/-- `get_memory()`: the 4096 bytes. -/
def State.getMemory (s : State) : List Byte := (List.range memorySize).map s.mem.read

/-- A pixel as a byte, 0 or 1 (10_state.md R30). -/
def pixelByte (p : Bool) : Byte := if p then 1#8 else 0#8

/-- `get_display()`: 2048 bytes, row-major (10_state.md R30). -/
def State.getDisplay (s : State) : List Byte :=
  (s.fb.toList.map (fun row => row.toList.map pixelByte)).flatten

/-- What a transaction hands back to the host. -/
inductive Response where
  | nothing
  | load (r : LoadResult)
  | bytes (bs : List Byte)
  | word (w : Word)
  | bit (b : Bool)
  deriving DecidableEq, Repr

/-- The result column of R100: what the host receives from a transaction invoked in state s. -/
def respond (t : Transaction) (s : State) : Response :=
  match t with
  | .reset => .nothing
  | .loadProgram bytes => .load (loadResult bytes)
  | .executeCycle => .nothing
  | .decrementTimers => .nothing
  | .keyDown _ => .nothing
  | .keyUp _ => .nothing
  | .getMemory => .bytes s.getMemory
  | .getDisplay => .bytes s.getDisplay
  | .getRegisterV => .bytes s.v.toList
  | .getRegisterI => .word s.i
  | .getRegisterPc => .word s.pc
  | .isFaulted => .bit s.faulted

/-- One transaction on the state (R100). -/
def transact (t : Transaction) (s : State) : Host.Outcome State Fault Refusal :=
  match t with
  | .reset => .next s.resetCore
  | .loadProgram bytes => .next (s.loadProgram bytes)
  | .executeCycle => executeCycle s
  | .decrementTimers => .next s.decrementTimers
  | .keyDown i => .next (s.keyDown i)
  | .keyUp i => .next (s.keyUp i)
  | .getMemory => .next s
  | .getDisplay => .next s
  | .getRegisterV => .next s
  | .getRegisterI => .next s
  | .getRegisterPc => .next s
  | .isFaulted => .next s

/-! ## The next transaction of the schedule -/

/-- The transaction the host invokes next: the schedule's first, or `execute_cycle` where it is empty (log 1). -/
def State.nextTransaction (s : State) : Transaction :=
  match s.schedule with
  | [] => .executeCycle
  | t :: _ => t

/-- The schedule without its first transaction. -/
def State.popSchedule (s : State) : State := { s with schedule := s.schedule.tail }

/-- One step of the machine: the host's next transaction, whole (00_scope.md R6, R7). -/
def runNext (s : State) : Host.Outcome State Fault Refusal := transact s.nextTransaction s.popSchedule

/-! ## Placing an instruction where the next cycle fetches it -/

/-- The core made Running, with the host about to invoke `execute_cycle` (log 23). -/
def State.readyToFetch (s : State) : State :=
  { s with latch := none, pendingKey := none, faulted := false, faultRec := none, schedule := [] }

/-- The opcode w stored at the fetch address of the next cycle (log 23). -/
def State.placeWord (s : State) (w : Nat) : State :=
  { s.readyToFetch with mem := storeWord s.mem s.pc (BitVec.ofNat 16 w) }

end Sys2Proof.Machine
end

