-- ==== Sys2Proof/Machine/Step.lean ====
section
/-! DEFINITION. One step: one transaction (00_scope.md R7). -/

namespace Sys2Proof.Machine

/-- One step: the transaction the host invokes next, which is `execute_cycle` where the schedule is empty. -/
def step (s : State) : Host.Outcome State Fault Refusal := runNext s

/-- s with one 16-bit instruction stored where step fetches its next instruction. -/
def State.withFetchWord (s : State) (_nbits w : Nat) : State := s.placeWord w

end Sys2Proof.Machine
end

