-- ==== Sys2Proof/Safety.lean ====
section
/-! DEFINITION. The terms claims are stated in: the invariant of the core, the words of the opcode table's patterns,
and who may write what. -/

namespace Sys2Proof.Machine

/-- What holds of the core at every transaction boundary. -/
structure State.Inv (s : State) : Prop where
  /-- Memory is in its canonical form: every listed byte exists and differs from the reset contents (20_memory.md R50). -/
  memCanonical : s.mem.wf = true
  /-- A record is retained exactly while the fault latch is set (10_state.md R35). -/
  recordIffFaulted : s.faultRec.isSome = s.faulted
  /-- Faulted and WaitingKey never hold together (10_state.md R34). -/
  faultedNotWaiting : s.faulted = true → s.latch = none
  /-- A key is pending only while the core waits for one (10_state.md R33). -/
  pendingOnlyWhileWaiting : s.latch = none → s.pendingKey = none

/-! ## The words of the table's patterns, in numbers (30_encoding.md R72, R75) -/

/-- `cnnn`. -/
def patternNNN (c : Nat) (nnn : Addr) : Word := BitVec.ofNat 16 (4096 * c + nnn.toNat)

/-- `cxkk`. -/
def patternXKK (c : Nat) (x : Reg) (kk : Nat) : Word := BitVec.ofNat 16 (4096 * c + 256 * x.val + kk)

/-- `cxyn`. -/
def patternXYN (c : Nat) (x y : Reg) (n : Nat) : Word := BitVec.ofNat 16 (4096 * c + 256 * x.val + 16 * y.val + n)

end Sys2Proof.Machine

namespace Sys2Proof

/-! ## Who may write what -/

/-- The general registers an instruction may write in its own cycle (10_state.md R21, R22). -/
def Instr.mayWriteReg (i : Instr) (k : Reg) : Bool :=
  match i with
  | .ldImm x _ | .addImm x _ | .ldReg x _ | .orReg x _ | .andReg x _ | .xorReg x _ | .rnd x _ | .ldVxDt x => k == x
  | .addReg x _ | .sub x _ | .shr x _ | .subn x _ | .shl x _ => k == x || k == Machine.vf
  | .drw _ _ _ => k == Machine.vf
  | .ldVxI x => decide (k ≤ x)
  | .cls | .ret | .sys _ | .jp _ | .call _ | .seImm _ _ | .sneImm _ _ | .seReg _ _ | .sneReg _ _ | .ldI _ | .jpV0 _
  | .skp _ | .sknp _ | .ldVxK _ | .ldDtVx _ | .addI _ | .ldF _ | .ldB _ | .ldIVx _ => false

/-- The conditional skips of 42_skips.md. -/
def Instr.isSkip : Instr → Bool
  | .seImm _ _ | .sneImm _ _ | .seReg _ _ | .sneReg _ _ | .skp _ | .sknp _ => true
  | .cls | .ret | .sys _ | .jp _ | .call _ | .ldImm _ _ | .addImm _ _ | .ldReg _ _ | .orReg _ _ | .andReg _ _
  | .xorReg _ _ | .addReg _ _ | .sub _ _ | .shr _ _ | .subn _ _ | .shl _ _ | .ldI _ | .jpV0 _ | .rnd _ _
  | .drw _ _ _ | .ldVxDt _ | .ldVxK _ | .ldDtVx _ | .addI _ | .ldF _ | .ldB _ | .ldIVx _ | .ldVxI _ => false

/-- The instructions of 41_control_flow.md that write PC. -/
def Instr.isTransfer : Instr → Bool
  | .ret | .jp _ | .call _ | .jpV0 _ => true
  | .cls | .sys _ | .seImm _ _ | .sneImm _ _ | .seReg _ _ | .sneReg _ _ | .skp _ | .sknp _ | .ldImm _ _
  | .addImm _ _ | .ldReg _ _ | .orReg _ _ | .andReg _ _ | .xorReg _ _ | .addReg _ _ | .sub _ _ | .shr _ _
  | .subn _ _ | .shl _ _ | .ldI _ | .rnd _ _ | .drw _ _ _ | .ldVxDt _ | .ldVxK _ | .ldDtVx _ | .addI _
  | .ldF _ | .ldB _ | .ldIVx _ | .ldVxI _ => false

/-- The instructions that dereference I (10_state.md R26). -/
def Instr.dereferencesI : Instr → Bool
  | .drw _ _ _ | .ldB _ | .ldIVx _ | .ldVxI _ => true
  | .cls | .ret | .sys _ | .jp _ | .call _ | .jpV0 _ | .seImm _ _ | .sneImm _ _ | .seReg _ _ | .sneReg _ _ | .skp _
  | .sknp _ | .ldImm _ _ | .addImm _ _ | .ldReg _ _ | .orReg _ _ | .andReg _ _ | .xorReg _ _ | .addReg _ _
  | .sub _ _ | .shr _ _ | .subn _ _ | .shl _ _ | .ldI _ | .rnd _ _ | .ldVxDt _ | .ldVxK _ | .ldDtVx _
  | .addI _ | .ldF _ => false

end Sys2Proof

namespace Sys2Proof.Machine

/-! ## What a sprite covers -/

/-- The sprite of DRW has a 1 bit on pixel (cx, cy): the column and row of the bit are the wrapped distances from
`V[x]` and `V[y]` (46_display.md R252), counted back from the pixel. -/
def State.spriteCovers (s : State) (x y : Reg) (n : Nibble) (cx : Fin 64) (cy : Fin 32) : Bool :=
  let j := (cx.val + 64 - (s.readReg x).toNat % 64) % 64
  let i := (cy.val + 32 - (s.readReg y).toNat % 32) % 32
  decide (j < 8) && decide (i < n.toNat) && (s.mem.read ((s.i.toNat + i) % 4096)).getLsbD (7 - j)

/-- The 1-or-0 byte of a comparison, as a number (00_scope.md R12). -/
def flagNat (p : Prop) [Decidable p] : Nat := if p then 1 else 0

end Sys2Proof.Machine
end

