-- ==== Sys2Proof/Certificates/Slice0/Obligations.lean ====
section
/-! DEFINITION. The statements for the provers, in the order of spec/: encoding, the cycle and the transactions, the
instructions family by family, and the rules about the whole machine. D<n> is a decision of 92_eei_decisions.md, which the
spec calls its own choice; log n is notes/assumptions/n.md. -/

open Sys2Proof Sys2Proof.Machine

/-! ## Encoding (30_encoding.md) -/

/-- Words written out from the patterns of R75 decode to their instructions; a word with a wrong fixed nibble to none. -/
def Obligations.WrittenWordsDecode : Prop :=
  decode 0x00E0#16 = .instr .cls ∧ decode 0x00EE#16 = .instr .ret ∧ decode 0x00E1#16 = .instr (.sys 0x0E1) ∧
  decode 0x1234#16 = .instr (.jp 0x234) ∧ decode 0x3342#16 = .instr (.seImm 3 0x42) ∧
  decode 0x8014#16 = .instr (.addReg 0 1) ∧ decode 0x80F6#16 = .instr (.shr 0 15) ∧
  decode 0xC30F#16 = .instr (.rnd 3 0x0F) ∧ decode 0xA210#16 = .instr (.ldI 0x210) ∧
  decode 0xD015#16 = .instr (.drw 0 1 5) ∧ decode 0xE2A1#16 = .instr (.sknp 2) ∧
  decode 0xF30A#16 = .instr (.ldVxK 3) ∧ decode 0x5121#16 = .unmatched ∧
  decodeBytes [0x12#8, 0x34#8, 0x56#8] = .instr (.jp 0x234) [0x56#8]

/-- Every well-formed instruction is what its own word decodes to. -/
def Obligations.DecodeOfEncode : Prop :=
  ∀ i : Instr, i.wellFormed = true → decode (encode i) = .instr i

/-- A word that decodes to an instruction is the encoding of it, and the instruction is well-formed: each matched word
has one meaning, and no bit of it is dropped (R70, R77). -/
def Obligations.EncodeOfDecode : Prop :=
  ∀ (op : Word) (i : Instr), decode op = .instr i → encode i = op ∧ i.wellFormed = true

/-- The unmatched words are exactly the five spaces of the table of R80. -/
def Obligations.UnmatchedWordsAreExactlyThese : Prop :=
  ∀ op : Word, decode op = .unmatched ↔
    (op.toNat / 4096 = 0x5 ∧ op.toNat % 16 ≠ 0) ∨
    (op.toNat / 4096 = 0x8 ∧ op.toNat % 16 ∈ [0x8, 0x9, 0xA, 0xB, 0xC, 0xD, 0xF]) ∨
    (op.toNat / 4096 = 0x9 ∧ op.toNat % 16 ≠ 0) ∨
    (op.toNat / 4096 = 0xE ∧ op.toNat % 256 ∉ [0x9E, 0xA1]) ∨
    (op.toNat / 4096 = 0xF ∧ op.toNat % 256 ∉ [0x07, 0x0A, 0x15, 0x1E, 0x29, 0x33, 0x55, 0x65])

/-- 17504 of the 65536 words are unmatched (R80). -/
def Obligations.UnmatchedWordCount : Prop :=
  (Finset.univ.filter fun op : Word => decode op = .unmatched).card = 17504

/-! ## The cycle (40_cycle_and_interface.md section 2) -/

/-- A step runs the transaction at the head of the host's schedule, or `execute_cycle` where the schedule is empty. Where
the core is Running and that transaction is `execute_cycle`, the step is the body of the instruction the bytes at PC decode
to, run with PC already advanced by 2. The schedule is the model's own (log 1; the spec's decision D1). -/
def Obligations.StepRunsDecodedInstruction : Prop :=
  ∀ s : State,
    (∀ q rest, s.schedule = q :: rest → step s = transact q { s with schedule := rest }) ∧
    (s.schedule = [] → step s = transact .executeCycle s) ∧
    ∀ i : Instr, s.runState = .running → decode (fetch16 s.mem s.pc) = .instr i →
      (s.schedule = [] → step s = exec i { s with pc := s.pc + 2#16 }) ∧
      (∀ rest, s.schedule = .executeCycle :: rest →
        step s = exec i { s with pc := s.pc + 2#16, schedule := rest })

/-- A fetch reads two bytes, the high one first, each address reduced mod 4096, so PCs equal mod 4096 fetch the same
word. The reduction is the spec's decision D8 (log 7). -/
def Obligations.FetchIsBigEndianModulo : Prop :=
  ∀ (m : Memory) (a b : Word),
    (fetch16 m a).toNat = 256 * (m.read (a.toNat % 4096)).toNat + (m.read ((a.toNat + 1) % 4096)).toNat ∧
    (a.toNat % 4096 = b.toNat % 4096 → fetch16 m a = fetch16 m b)

/-- A cycle that starts in Faulted changes nothing (R102), nor does the step that runs it. That a step with an empty
schedule is a cycle is the model's choice (log 1; the spec's decision D1). -/
def Obligations.FaultedCycleChangesNothing : Prop :=
  ∀ s : State, s.runState = .faulted →
    executeCycle s = .next s ∧ (s.schedule = [] → step s = .next s)

/-- A cycle that starts in WaitingKey with no pending key changes nothing (R103), nor does the step that runs it. That a
step with an empty schedule is a cycle is the model's choice (log 1; the spec's decision D1). -/
def Obligations.StalledCycleChangesNothing : Prop :=
  ∀ s : State, s.runState = .waitingKey → s.pendingKey = none →
    executeCycle s = .next s ∧ (s.schedule = [] → step s = .next s)

/-- A cycle that starts in WaitingKey with key k pending writes k to the latched register and clears both latches. That
it runs no opcode and leaves PC is the spec's decision D12 (log 11). -/
def Obligations.PendingKeyEndsWait : Prop :=
  ∀ (s : State) (x : Reg) (k : KeyIx), s.runState = .waitingKey → s.latch = some x → s.pendingKey = some k →
    ∃ t, executeCycle s = .next t ∧ t = { s with v := t.v, latch := none, pendingKey := none } ∧
      t.runState = .running ∧ (t.readReg x).toNat = k.val ∧ ∀ r, r ≠ x → t.readReg r = s.readReg r

/-- A Running cycle faults exactly on an unmatched word, on CALL with SP = 16 and on RET with SP = 0; it then changes
PC, `Faulted` and `FaultRec` alone, and the record holds the kind, the fetched word and the fetch address. The content
of the record and PC = a + 2 are the spec's decision D13 (log 8, log 9). -/
def Obligations.FaultsArePrecise : Prop :=
  ∀ s : State, s.runState = .running → ∃ t, executeCycle s = .next t ∧
    let op := fetch16 s.mem s.pc
    let fault := fun k => t = { s with pc := s.pc + 2#16, faulted := true, faultRec := some ⟨k, op, s.pc⟩ }
    (decode op = .unmatched → fault .unknownOpcode) ∧
    ((∃ nnn, decode op = .instr (.call nnn)) → s.sp.val = 16 → fault .stackOverflow) ∧
    (decode op = .instr .ret → s.sp.val = 0 → fault .stackUnderflow) ∧
    (t.faulted = true → decode op = .unmatched ∨ ((∃ nnn, decode op = .instr (.call nnn)) ∧ s.sp.val = 16) ∨
      (decode op = .instr .ret ∧ s.sp.val = 0))

/-- R107: the run-state machine. A cycle keeps Faulted, keeps WaitingKey without a pending key, leaves it with one, and
takes Running to WaitingKey by LD Vx, K, to Faulted by the three faults and to Running by everything else; `reset()` gives
Running, and no other transaction changes the run state. -/
def Obligations.RunStateMachine : Prop :=
  ∀ s t : State,
    (executeCycle s = .next t →
      (s.runState = .faulted → t.runState = .faulted) ∧
      (s.runState = .waitingKey → s.pendingKey = none → t.runState = .waitingKey) ∧
      (s.runState = .waitingKey → s.pendingKey ≠ none → t.runState = .running) ∧
      (s.runState = .running → decode (fetch16 s.mem s.pc) = .unmatched → t.runState = .faulted) ∧
      ∀ i, s.runState = .running → decode (fetch16 s.mem s.pc) = .instr i →
        let faults := (i = .ret ∧ s.sp.val = 0) ∨ ((∃ nnn, i = .call nnn) ∧ s.sp.val = 16)
        ((∃ x, i = .ldVxK x) → t.runState = .waitingKey) ∧ (faults → t.runState = .faulted) ∧
        (¬ faults → (∀ x, i ≠ .ldVxK x) → t.runState = .running)) ∧
    (transact .reset s = .next t → t.runState = .running) ∧
    ∀ q, q ≠ .reset → q ≠ .executeCycle → transact q s = .next t → t.runState = s.runState

/-- A Running core at a JP to its own address runs it for ever: after any number of cycles nothing has changed
(40_cycle_and_interface.md section 7; the spec's decision D29, log 25, and the model's schedule, log 1). -/
def Obligations.SelfJumpRepeats : Prop :=
  ∀ (s : State) (nnn : Addr), s.runState = .running → decode (fetch16 s.mem s.pc) = .instr (.jp nnn) →
    nnn.toNat = s.pc.toNat → s.schedule = [] → ∀ n, Sys2Proof.core.run n s = .next s

/-- The kinds are numbered 1, 2 and 3, and a core with no record shows 0. The numbers are the spec's decision D14
(log 8). -/
def Obligations.FaultKindsAreNumbered : Prop :=
  FaultKind.code .stackOverflow = 1 ∧ FaultKind.code .stackUnderflow = 2 ∧ FaultKind.code .unknownOpcode = 3 ∧
  ∀ s : State, s.Inv → (s.faultCode = 0 ↔ s.faulted = false)

/-! ## The host's transactions -/

/-- `key_down(i)`: above 15 nothing; a key already down nothing; otherwise the key goes down, and it becomes the
pending key where a wait has none yet. The record of the first transition and the ignored indices are the spec's
decisions D11 and D16 (log 10). -/
def Obligations.KeyDownRecordsFirstTransition : Prop :=
  ∀ (s : State) (i : Byte),
    (16 ≤ i.toNat → transact (.keyDown i) s = .next s) ∧
    (∀ k : KeyIx, i.toNat = k.val → s.keys[k] = true → transact (.keyDown i) s = .next s) ∧
    (∀ k : KeyIx, i.toNat = k.val → s.keys[k] = false → ∃ t, transact (.keyDown i) s = .next t ∧
      t = { s with keys := t.keys, pendingKey := t.pendingKey } ∧
      (∀ j : KeyIx, t.keys[j] = if j = k then true else s.keys[j]) ∧
      (s.latch ≠ none → s.pendingKey = none → t.pendingKey = some k) ∧
      (s.latch = none ∨ s.pendingKey ≠ none → t.pendingKey = s.pendingKey))

/-- `key_up(i)`: above 15 nothing; otherwise the key is up and nothing else changes, the pending key included. The
pending key's survival and the ignored indices are the spec's decisions D11 and D16 (log 10). -/
def Obligations.KeyUpReleasesOneKey : Prop :=
  ∀ (s : State) (i : Byte),
    (16 ≤ i.toNat → transact (.keyUp i) s = .next s) ∧
    (∀ k : KeyIx, i.toNat = k.val → ∃ t, transact (.keyUp i) s = .next t ∧ t = { s with keys := t.keys } ∧
      ∀ j : KeyIx, t.keys[j] = if j = k then false else s.keys[j])

/-- `decrement_timers()` takes 1 from DT down to a floor of 0 and changes nothing else. That it does so in every run
state is the spec's decision D15 (log 12). -/
def Obligations.TimerTickSaturates : Prop :=
  ∀ s : State, ∃ t, transact .decrementTimers s = .next t ∧ t = { s with dt := t.dt } ∧
    t.dt.toNat = s.dt.toNat - 1

/-- `load_program(bytes)`: up to 3584 bytes are stored from 0x200 on and no other byte changes; a longer image is
answered `too_large` and changes nothing. The last part is the spec's decision D17 (log 13). -/
def Obligations.LoadProgramStoresImage : Prop :=
  ∀ (s : State) (bytes : List Byte), s.Inv →
    (bytes.length ≤ 3584 → respond (.loadProgram bytes) s = .load .ok ∧
      ∃ t, transact (.loadProgram bytes) s = .next t ∧ t = { s with mem := t.mem } ∧
        (∀ (j : Nat) (b : Byte), bytes[j]? = some b → t.mem.read (0x200 + j) = b) ∧
        (∀ a, a < 4096 → a < 0x200 ∨ 0x200 + bytes.length ≤ a → t.mem.read a = s.mem.read a)) ∧
    (3584 < bytes.length → respond (.loadProgram bytes) s = .load .tooLarge ∧
      transact (.loadProgram bytes) s = .next s)

/-- The inspectors change nothing and return the memory, the pixels row-major as 0 or 1, V, I, PC and `Faulted`
(R114; what else a model may observe is the spec's decision D26, log 21). -/
def Obligations.InspectorsReturnTheState : Prop :=
  ∀ s : State,
    (∀ q ∈ [Transaction.getMemory, .getDisplay, .getRegisterV, .getRegisterI, .getRegisterPc, .isFaulted],
      transact q s = .next s) ∧
    (∃ bs, respond .getMemory s = .bytes bs ∧ bs.length = 4096 ∧ ∀ a, a < 4096 → bs[a]? = some (s.mem.read a)) ∧
    (∃ bs, respond .getDisplay s = .bytes bs ∧ bs.length = 2048 ∧ ∀ (x : Fin 64) (y : Fin 32),
      bs[x.val + 64 * y.val]? = some (if s.fb.pixel x y then 1#8 else 0#8)) ∧
    (∃ bs, respond .getRegisterV s = .bytes bs ∧ bs.length = 16 ∧ ∀ r : Reg, bs[r.val]? = some (s.readReg r)) ∧
    respond .getRegisterI s = .word s.i ∧ respond .getRegisterPc s = .word s.pc ∧
    respond .isFaulted s = .bit s.faulted

/-- After `reset()`, and at construction, every piece of state has its value of R41, for the `FONT_BASE` and `FONT_DATA`
this model takes; the byte source and the host's schedule are no state of the core. PC, I, the keypad, the pending key
and the untouched source are the spec's decisions D4, D5, D6 and D28, the font D2 and D3 (log 3, 4, 6, 22). -/
def Obligations.ResetLeavesTheResetState : Prop :=
  ∀ s : State, ∃ t, transact .reset s = .next t ∧ t.rndCount = s.rndCount ∧ t.schedule = s.schedule ∧
    ∀ u ∈ [t, State.reset],
      (∀ (k : Nat) (h : k < 80), u.mem.read (fontBase.addr + k) = fontData[k]) ∧
      (∀ a, a < 4096 → a < fontBase.addr ∨ fontBase.addr + 80 ≤ a → u.mem.read a = 0#8) ∧
      (∀ r, u.readReg r = 0#8) ∧ u.i = 0#16 ∧ u.pc = 0x200#16 ∧ u.sp = 0 ∧ (∀ k : Fin 16, u.stack[k] = 0#16) ∧
      u.dt = 0#8 ∧ (∀ x y, u.fb.pixel x y = false) ∧ (∀ k : KeyIx, u.keys[k] = false) ∧ u.latch = none ∧
      u.pendingKey = none ∧ u.faulted = false ∧ u.faultRec = none ∧ u.runState = .running

/-- No transaction but `reset()` leaves Faulted or changes the record, no cycle does anything there, and `reset()`
rewrites all state of the core, the latch and the record included (R289). That it keeps the count of random bytes and the
host's schedule, the model's own fields, is the model's choice (log 22; the spec's decision D28). -/
def Obligations.OnlyResetLeavesFaulted : Prop :=
  ∀ (s t : State) (q : Transaction), s.faulted = true → transact q s = .next t →
    (q ≠ .reset → t.faulted = true ∧ t.faultRec = s.faultRec) ∧ (q = .executeCycle → t = s) ∧
    (q = .reset → t = { State.reset with rndCount := s.rndCount, schedule := s.schedule } ∧ t.faulted = false ∧
      t.faultRec = none)

/-- Every step answers a next state: no transaction of this core stops the machine. -/
def Obligations.EveryStepAnswersNext : Prop :=
  ∀ s : State, ∃ t, step s = .next t

/-- The invariant holds right after reset. -/
def Obligations.ResetMeetsInvariant : Prop := State.reset.Inv

/-- Every step, whichever transaction the host invokes, keeps the invariant. -/
def Obligations.StepKeepsInvariant : Prop :=
  ∀ s t : State, s.Inv → step s = .next t → t.Inv

/-! ## Control flow (41_control_flow.md) -/

/-- R130: SYS, which is every class-0 word but 00E0 and 00EE, does nothing. -/
def Obligations.SysChangesNothing : Prop :=
  (∀ nnn : Addr, nnn ≠ 0x0E0#12 → nnn ≠ 0x0EE#12 → decode (patternNNN 0x0 nnn) = .instr (.sys nnn)) ∧
  ∀ (nnn : Addr) (s : State), exec (.sys nnn) s = .next s

/-- R132: JP nnn writes nnn to PC. -/
def Obligations.JumpGoesToItsTarget : Prop :=
  ∀ (nnn : Addr) (s : State), decode (patternNNN 0x1 nnn) = .instr (.jp nnn) ∧
    ∃ t, exec (.jp nnn) s = .next t ∧ t = { s with pc := t.pc } ∧ t.pc.toNat = nnn.toNat

/-- R133: with SP < 16, CALL nnn stores PC (a + 2) in Stack[SP], adds 1 to SP and jumps; with SP = 16 it raises
StackOverflow and writes nothing else. -/
def Obligations.CallPushesReturnAddress : Prop :=
  ∀ (nnn : Addr) (s : State), decode (patternNNN 0x2 nnn) = .instr (.call nnn) ∧
    (s.sp.val < 16 → ∃ t, exec (.call nnn) s = .next t ∧ t = { s with stack := t.stack, sp := t.sp, pc := t.pc } ∧
      t.sp.val = s.sp.val + 1 ∧ t.pc.toNat = nnn.toNat ∧
      ∀ k : Fin 16, t.stack[k] = if k.val = s.sp.val then s.pc else s.stack[k]) ∧
    (s.sp.val = 16 → ∃ t r, exec (.call nnn) s = .next t ∧ t = { s with faulted := true, faultRec := some r } ∧
      r.kind = .stackOverflow)

/-- R131: with SP > 0, RET subtracts 1 from SP and writes the whole slot Stack[SP] to PC, the slot keeping its value;
with SP = 0 it raises StackUnderflow and writes nothing else. -/
def Obligations.ReturnPopsReturnAddress : Prop :=
  decode 0x00EE#16 = .instr .ret ∧
  ∀ s : State,
    (0 < s.sp.val → ∃ t, exec .ret s = .next t ∧ t = { s with sp := t.sp, pc := t.pc } ∧
      t.sp.val = s.sp.val - 1 ∧ ∀ k : Fin 16, k.val = s.sp.val - 1 → t.pc = s.stack[k]) ∧
    (s.sp.val = 0 → ∃ t r, exec .ret s = .next t ∧ t = { s with faulted := true, faultRec := some r } ∧
      r.kind = .stackUnderflow)

/-- A RET right after a CALL goes back to the CALL's PC (a + 2) and changes nothing but the slot the CALL wrote, which
keeps that PC. That RET does not clear the slot is the spec's decision D22 (log 17). -/
def Obligations.ReturnUndoesCall : Prop :=
  ∀ (nnn : Addr) (s : State), s.sp.val < 16 → ∃ t u, exec (.call nnn) s = .next t ∧ exec .ret t = .next u ∧
    u = { s with stack := u.stack } ∧ ∀ k : Fin 16, u.stack[k] = if k.val = s.sp.val then s.pc else s.stack[k]

/-- JP V0, nnn writes nnn + V0 to PC, unmasked. That PC may so exceed 0xFFF is the spec's decision D9 (log 7). -/
def Obligations.JumpV0AddsRegisterZero : Prop :=
  ∀ (nnn : Addr) (s : State), decode (patternNNN 0xB nnn) = .instr (.jpV0 nnn) ∧
    ∃ t, exec (.jpV0 nnn) s = .next t ∧ t = { s with pc := t.pc } ∧
      t.pc.toNat = nnn.toNat + (s.readReg 0).toNat

/-! ## Skips (42_skips.md) -/

/-- R150, R151, R152, R153: each compare skips 2 more bytes exactly when its condition holds, and changes PC alone. -/
def Obligations.ComparesSkip : Prop :=
  ∀ (x y : Reg) (kk : Byte) (s : State),
    decode (patternXKK 0x3 x kk.toNat) = .instr (.seImm x kk) ∧
    decode (patternXKK 0x4 x kk.toNat) = .instr (.sneImm x kk) ∧
    decode (patternXYN 0x5 x y 0) = .instr (.seReg x y) ∧ decode (patternXYN 0x9 x y 0) = .instr (.sneReg x y) ∧
    exec (.seImm x kk) s = .next { s with pc := if s.readReg x = kk then s.pc + 2#16 else s.pc } ∧
    exec (.sneImm x kk) s = .next { s with pc := if s.readReg x = kk then s.pc else s.pc + 2#16 } ∧
    exec (.seReg x y) s = .next { s with pc := if s.readReg x = s.readReg y then s.pc + 2#16 else s.pc } ∧
    exec (.sneReg x y) s = .next { s with pc := if s.readReg x = s.readReg y then s.pc else s.pc + 2#16 }

/-- R154, R155: SKP skips exactly when the key of the low nibble of V[x] is down, SKNP exactly when it is up; both
change PC alone. -/
def Obligations.KeysSkip : Prop :=
  ∀ (x : Reg) (s : State),
    decode (patternXKK 0xE x 0x9E) = .instr (.skp x) ∧ decode (patternXKK 0xE x 0xA1) = .instr (.sknp x) ∧
    ∀ k : KeyIx, k.val = (s.readReg x).toNat % 16 →
      exec (.skp x) s = .next { s with pc := if s.keys[k] = true then s.pc + 2#16 else s.pc } ∧
      exec (.sknp x) s = .next { s with pc := if s.keys[k] = true then s.pc else s.pc + 2#16 }

/-! ## Register loads and arithmetic (43_alu.md) -/

/-- R170, R171, R172, R173, R174, R175: the loads, the add of an immediate and the bitwise operations write V[x] alone,
so VF keeps its value unless x = 0xF. -/
def Obligations.LoadsAndLogicWriteOneRegister : Prop :=
  ∀ (x y : Reg) (kk : Byte) (s : State),
    let writes := fun (i : Instr) (p : Byte → Prop) => ∃ t, exec i s = .next t ∧ t = { s with v := t.v } ∧
      p (t.readReg x) ∧ ∀ r, r ≠ x → t.readReg r = s.readReg r
    let a := s.readReg x
    let b := s.readReg y
    decode (patternXKK 0x6 x kk.toNat) = .instr (.ldImm x kk) ∧
    decode (patternXKK 0x7 x kk.toNat) = .instr (.addImm x kk) ∧
    decode (patternXYN 0x8 x y 0) = .instr (.ldReg x y) ∧ decode (patternXYN 0x8 x y 1) = .instr (.orReg x y) ∧
    decode (patternXYN 0x8 x y 2) = .instr (.andReg x y) ∧ decode (patternXYN 0x8 x y 3) = .instr (.xorReg x y) ∧
    writes (.ldImm x kk) (fun v => v = kk) ∧
    writes (.addImm x kk) (fun v => v.toNat = (a.toNat + kk.toNat) % 256) ∧
    writes (.ldReg x y) (fun v => v = b) ∧
    writes (.orReg x y) (fun v => ∀ n : Fin 8, v[n] = (a[n] || b[n])) ∧
    writes (.andReg x y) (fun v => ∀ n : Fin 8, v[n] = (a[n] && b[n])) ∧
    writes (.xorReg x y) (fun v => ∀ n : Fin 8, v[n] = (a[n] ^^ b[n]))

/-- ADD Vx, Vy: V[x] is the sum mod 256 and VF the carry; with x = 0xF the sum is VF's last write. The case x = 0xF is
the spec's reading VF_ORDER = sequential, decision D10 (log 5). -/
def Obligations.AddSetsCarry : Prop :=
  ∀ (x y : Reg) (s : State), decode (patternXYN 0x8 x y 4) = .instr (.addReg x y) ∧
    let a := (s.readReg x).toNat
    let b := (s.readReg y).toNat
    ∃ t, exec (.addReg x y) s = .next t ∧ t = { s with v := t.v } ∧
      (t.readReg x).toNat = (a + b) % 256 ∧
      (x ≠ vf → (t.readReg vf).toNat = flagNat (255 < a + b)) ∧
      ∀ r, r ≠ x → r ≠ vf → t.readReg r = s.readReg r

/-- SUB Vx, Vy: VF is 1 where V[x] ≥ V[y], then V[x] is the difference mod 256, read after VF was written. The cases
where x or y is 0xF are the spec's reading VF_ORDER = sequential, decision D10 (log 5). -/
def Obligations.SubSetsNoBorrow : Prop :=
  ∀ (x y : Reg) (s : State), decode (patternXYN 0x8 x y 5) = .instr (.sub x y) ∧
    let a := (s.readReg x).toNat
    let b := (s.readReg y).toNat
    let f := flagNat (b ≤ a)
    ∃ t, exec (.sub x y) s = .next t ∧ t = { s with v := t.v } ∧
      (x ≠ vf → y ≠ vf → (t.readReg x).toNat = (a + 256 - b) % 256) ∧
      (x = vf → y ≠ vf → (t.readReg x).toNat = (f + 256 - b) % 256) ∧
      (x ≠ vf → y = vf → (t.readReg x).toNat = (a + 256 - f) % 256) ∧
      (x = vf → y = vf → (t.readReg x).toNat = 0) ∧
      (x ≠ vf → (t.readReg vf).toNat = f) ∧
      ∀ r, r ≠ x → r ≠ vf → t.readReg r = s.readReg r

/-- SUBN Vx, Vy: VF is 1 where V[y] ≥ V[x], then V[x] is V[y] − V[x] mod 256, read after VF was written. The cases
where x or y is 0xF are the spec's reading VF_ORDER = sequential, decision D10 (log 5). -/
def Obligations.SubnSetsNoBorrow : Prop :=
  ∀ (x y : Reg) (s : State), decode (patternXYN 0x8 x y 7) = .instr (.subn x y) ∧
    let a := (s.readReg x).toNat
    let b := (s.readReg y).toNat
    let f := flagNat (a ≤ b)
    ∃ t, exec (.subn x y) s = .next t ∧ t = { s with v := t.v } ∧
      (x ≠ vf → y ≠ vf → (t.readReg x).toNat = (b + 256 - a) % 256) ∧
      (x = vf → y ≠ vf → (t.readReg x).toNat = (b + 256 - f) % 256) ∧
      (x ≠ vf → y = vf → (t.readReg x).toNat = (f + 256 - a) % 256) ∧
      (x = vf → y = vf → (t.readReg x).toNat = 0) ∧
      (x ≠ vf → (t.readReg vf).toNat = f) ∧
      ∀ r, r ≠ x → r ≠ vf → t.readReg r = s.readReg r

/-- SHR Vx and SHL Vx, whatever y is: VF is the bit shifted out, V[x] the shifted value; with x = 0xF the shift reads
the flag just written. The case x = 0xF is the spec's reading VF_ORDER = sequential, decision D10 (log 5). -/
def Obligations.ShiftsSetBitOut : Prop :=
  ∀ (x y : Reg) (s : State),
    decode (patternXYN 0x8 x y 6) = .instr (.shr x y) ∧ decode (patternXYN 0x8 x y 0xE) = .instr (.shl x y) ∧
    let a := (s.readReg x).toNat
    (∃ t, exec (.shr x y) s = .next t ∧ t = { s with v := t.v } ∧
      (x ≠ vf → (t.readReg x).toNat = a / 2 ∧ (t.readReg vf).toNat = a % 2) ∧
      (x = vf → (t.readReg vf).toNat = 0) ∧ ∀ r, r ≠ x → r ≠ vf → t.readReg r = s.readReg r) ∧
    (∃ t, exec (.shl x y) s = .next t ∧ t = { s with v := t.v } ∧
      (x ≠ vf → (t.readReg x).toNat = 2 * a % 256 ∧ (t.readReg vf).toNat = a / 128) ∧
      (x = vf → (t.readReg vf).toNat = 2 * (a / 128)) ∧ ∀ r, r ≠ x → r ≠ vf → t.readReg r = s.readReg r)

/-- Away from VF the three readings of R188 give the same state, for 8xy4 to 8xyE. -/
def Obligations.VfReadingsAgreeAwayFromVf : Prop :=
  ∀ (s : State) (x y : Reg) (o p : Config.VfOrder), x ≠ vf → y ≠ vf →
    s.addFlagged o x y = s.addFlagged p x y ∧ s.subFlagged o x y = s.subFlagged p x y ∧
    s.shrFlagged o x = s.shrFlagged p x ∧ s.subnFlagged o x y = s.subnFlagged p x y ∧
    s.shlFlagged o x = s.shlFlagged p x

/-- The columns `snapshot` and `flag_last` of R188's table where x or y is 0xF, every cell: the values of the readings the
spec did not choose (D10; log 5). -/
def Obligations.VfReadingsWhereVfIsAnOperand : Prop :=
  ∀ (s : State) (x y : Reg), x ≠ vf → y ≠ vf →
    let a := (s.readReg x).toNat
    let b := (s.readReg y).toNat
    let w := (s.readReg vf).toNat
    ((s.addFlagged .snapshot vf y).readReg vf).toNat = (w + b) % 256 ∧
    ((s.addFlagged .flagLast vf y).readReg vf).toNat = flagNat (255 < w + b) ∧
    (∀ o ∈ [Config.VfOrder.snapshot, .flagLast],
      ((s.addFlagged o x vf).readReg x).toNat = (a + w) % 256 ∧
      ((s.addFlagged o x vf).readReg vf).toNat = flagNat (255 < a + w)) ∧
    ((s.addFlagged .snapshot vf vf).readReg vf).toNat = 2 * w % 256 ∧
    ((s.addFlagged .flagLast vf vf).readReg vf).toNat = flagNat (128 ≤ w) ∧
    ((s.subFlagged .snapshot vf y).readReg vf).toNat = (w + 256 - b) % 256 ∧
    ((s.subFlagged .flagLast vf y).readReg vf).toNat = flagNat (b ≤ w) ∧
    (∀ o ∈ [Config.VfOrder.snapshot, .flagLast],
      ((s.subFlagged o x vf).readReg x).toNat = (a + 256 - w) % 256 ∧
      ((s.subFlagged o x vf).readReg vf).toNat = flagNat (w ≤ a) ∧
      ((s.subnFlagged o x vf).readReg x).toNat = (w + 256 - a) % 256 ∧
      ((s.subnFlagged o x vf).readReg vf).toNat = flagNat (a ≤ w)) ∧
    ((s.subFlagged .snapshot vf vf).readReg vf).toNat = 0 ∧ ((s.subFlagged .flagLast vf vf).readReg vf).toNat = 1 ∧
    ((s.shrFlagged .snapshot vf).readReg vf).toNat = w / 2 ∧ ((s.shrFlagged .flagLast vf).readReg vf).toNat = w % 2 ∧
    ((s.subnFlagged .snapshot vf y).readReg vf).toNat = (b + 256 - w) % 256 ∧
    ((s.subnFlagged .flagLast vf y).readReg vf).toNat = flagNat (w ≤ b) ∧
    ((s.subnFlagged .snapshot vf vf).readReg vf).toNat = 0 ∧ ((s.subnFlagged .flagLast vf vf).readReg vf).toNat = 1 ∧
    ((s.shlFlagged .snapshot vf).readReg vf).toNat = 2 * w % 256 ∧
    ((s.shlFlagged .flagLast vf).readReg vf).toNat = w / 128

/-- RND Vx, kk: V[x] receives the next byte of the source masked by kk, one byte is consumed whatever kk is, and nothing
else changes; for every byte r the masked value has no bit outside kk. That exactly one byte is consumed is the spec's
decision D19 (log 2, log 15). -/
def Obligations.RandomByteIsMasked : Prop :=
  ∀ (x : Reg) (kk r : Byte) (s : State), decode (patternXKK 0xC x kk.toNat) = .instr (.rnd x kk) ∧
    (∃ t, exec (.rnd x kk) s = .next t ∧ t = { s with v := t.v, rndCount := s.rndCount + 1 } ∧
      t = s.randomInto (Config.randByte s.rndCount) x kk) ∧
    (∀ n : Fin 8, ((s.randomInto r x kk).readReg x)[n] = (r[n] && kk[n])) ∧
    ∀ k, k ≠ x → (s.randomInto r x kk).readReg k = s.readReg k

/-! ## Index register and memory transfers (44_index_memory.md) -/

/-- R200, R202, R204: LD I, ADD I and LD F write I alone: nnn; the 16-bit wrapped sum; `FONT_BASE` + 5 times the low
nibble of V[x], which lies in `FONT_BASE` to `FONT_BASE + 75`. -/
def Obligations.IndexIsWritten : Prop :=
  ∀ (nnn : Addr) (x : Reg) (s : State),
    let writes := fun (i : Instr) (n : Nat) => ∃ t, exec i s = .next t ∧ t = { s with i := t.i } ∧ t.i.toNat = n
    let glyph := fontBase.addr + 5 * ((s.readReg x).toNat % 16)
    decode (patternNNN 0xA nnn) = .instr (.ldI nnn) ∧ decode (patternXKK 0xF x 0x1E) = .instr (.addI x) ∧
    decode (patternXKK 0xF x 0x29) = .instr (.ldF x) ∧
    writes (.ldI nnn) nnn.toNat ∧ writes (.addI x) ((s.i.toNat + (s.readReg x).toNat) % 65536) ∧
    writes (.ldF x) glyph ∧ fontBase.addr ≤ glyph ∧ glyph ≤ fontBase.addr + 75

/-- The glyph address is `FONT_BASE + 5 · (V[x] & 0xF)` at each of the two values of `FONT_BASE`, and at reset the five
bytes there are the glyph's rows, whatever `FONT_DATA` is. -/
def Obligations.GlyphAddressForEveryFontBase : Prop :=
  ∀ (base : Config.FontBase) (font : Vector Byte 80) (b : Byte),
    (glyphAddress base b).toNat = base.addr + 5 * (b.toNat % 16) ∧
    ∀ (k : Nat) (h : 5 * (b.toNat % 16) + k < 80), k < 5 →
      Memory.initialWith base font ((glyphAddress base b).toNat + k) = font[5 * (b.toNat % 16) + k]

/-- LD B, Vx: the decimal digits of V[x], hundreds first, at EA(0), EA(1), EA(2); every other byte of memory and all
other state is unchanged. The reduction of EA mod 4096 is the spec's decision D7 (log 7). -/
def Obligations.DecimalDigitsAreStored : Prop :=
  ∀ (x : Reg) (s : State), s.Inv → decode (patternXKK 0xF x 0x33) = .instr (.ldB x) ∧
    let n := (s.readReg x).toNat
    ∃ t, exec (.ldB x) s = .next t ∧ t = { s with mem := t.mem } ∧
      (t.mem.read (effectiveAddress s.i 0)).toNat = n / 100 ∧
      (t.mem.read (effectiveAddress s.i 1)).toNat = n / 10 % 10 ∧
      (t.mem.read (effectiveAddress s.i 2)).toNat = n % 10 ∧
      ∀ a, a < 4096 → (∀ k, k < 3 → effectiveAddress s.i k ≠ a) → t.mem.read a = s.mem.read a

/-- LD [I], Vx: V[k] is stored at EA(k) for k = 0 .. x; every other byte of memory and all other state, I included, is
unchanged. The reduction of EA mod 4096 is the spec's decision D7 (log 7). -/
def Obligations.BlockIsStored : Prop :=
  ∀ (x : Reg) (s : State), s.Inv → decode (patternXKK 0xF x 0x55) = .instr (.ldIVx x) ∧
    ∃ t, exec (.ldIVx x) s = .next t ∧ t = { s with mem := t.mem } ∧
      (∀ k : Reg, k ≤ x → t.mem.read (effectiveAddress s.i k.val) = s.readReg k) ∧
      ∀ a, a < 4096 → (∀ k : Reg, k ≤ x → effectiveAddress s.i k.val ≠ a) → t.mem.read a = s.mem.read a

/-- LD Vx, [I]: V[k] is loaded from EA(k) for k = 0 .. x; the registers above x and all other state, I and memory
included, are unchanged. The reduction of EA mod 4096 is the spec's decision D7 (log 7). -/
def Obligations.BlockIsLoaded : Prop :=
  ∀ (x : Reg) (s : State), decode (patternXKK 0xF x 0x65) = .instr (.ldVxI x) ∧
    ∃ t, exec (.ldVxI x) s = .next t ∧ t = { s with v := t.v } ∧
      (∀ k : Reg, k ≤ x → t.readReg k = s.mem.read (effectiveAddress s.i k.val)) ∧
      ∀ k : Reg, x < k → t.readReg k = s.readReg k

/-- A store reaches the very next fetch: where LD [I], Vx (x ≥ 1) stores over the two bytes at PC, the next fetch reads
V0 and V1 as the opcode. This coherence is the spec's decision D21 (log 16). -/
def Obligations.StoreReachesNextFetch : Prop :=
  ∀ (x : Reg) (s : State), s.Inv → 1 ≤ x → s.i.toNat % 4096 = s.pc.toNat % 4096 →
    ∃ t, exec (.ldIVx x) s = .next t ∧
      (fetch16 t.mem t.pc).toNat = 256 * (s.readReg 0).toNat + (s.readReg 1).toNat

/-! ## Delay timer and key wait (45_timer_key.md) -/

/-- R230, R231: LD Vx, DT copies DT to V[x] and LD DT, Vx copies V[x] to DT; nothing else changes. -/
def Obligations.TimerIsCopied : Prop :=
  ∀ (x : Reg) (s : State),
    decode (patternXKK 0xF x 0x07) = .instr (.ldVxDt x) ∧ decode (patternXKK 0xF x 0x15) = .instr (.ldDtVx x) ∧
    (∃ t, exec (.ldVxDt x) s = .next t ∧ t = { s with v := t.v } ∧ t.readReg x = s.dt ∧
      ∀ r, r ≠ x → t.readReg r = s.readReg r) ∧
    exec (.ldDtVx x) s = .next { s with dt := s.readReg x }

/-- LD Vx, K sets the latch to x, drops any pending key and changes nothing else: V[x] is not written in this cycle.
The pending key's form is the spec's decision D11 (log 10). -/
def Obligations.KeyWaitBegins : Prop :=
  ∀ (x : Reg) (s : State), decode (patternXKK 0xF x 0x0A) = .instr (.ldVxK x) ∧
    exec (.ldVxK x) s = .next { s with latch := some x, pendingKey := none }

/-- The whole wait: a Running core that fetches LD Vx, K stays at a + 2 through any number n of cycles; after
`key_down(k)` of a key that is up, the next cycle writes k to V[x] and the core is Running again at a + 2. Rests on the
spec's decisions D11 and D12 (log 10, 11) and on the model's schedule (log 1). -/
def Obligations.KeyDownEndsKeyWait : Prop :=
  ∀ (s : State) (x : Reg) (k : KeyIx) (n : Nat) (rest : List Transaction), s.runState = .running →
    decode (fetch16 s.mem s.pc) = .instr (.ldVxK x) → s.keys[k] = false →
    s.schedule = List.replicate (n + 1) .executeCycle ++ [.keyDown (BitVec.ofNat 8 k.val), .executeCycle] ++ rest →
    (∃ m, Sys2Proof.core.run (n + 1) s = .next m ∧
      m = { s with pc := s.pc + 2#16, latch := some x, pendingKey := none, schedule := m.schedule }) ∧
    ∃ t, Sys2Proof.core.run (n + 3) s = .next t ∧
      t = { s with pc := s.pc + 2#16, v := t.v, keys := t.keys, latch := none, pendingKey := none, schedule := rest } ∧
      (t.readReg x).toNat = k.val ∧ (∀ r, r ≠ x → t.readReg r = s.readReg r) ∧
      ∀ j : KeyIx, t.keys[j] = if j = k then true else s.keys[j]

/-! ## Display (46_display.md) -/

/-- R250: CLS makes every pixel 0 and changes nothing else, VF included. -/
def Obligations.ClearBlanksTheDisplay : Prop :=
  decode 0x00E0#16 = .instr .cls ∧
  ∀ s : State, ∃ t, exec .cls s = .next t ∧ t = { s with fb := t.fb } ∧ ∀ x y, t.fb.pixel x y = false

/-- DRW Vx, Vy, n: a pixel is inverted exactly where the sprite, wrapped on both axes, has a 1 bit; VF is 1 exactly where
some 1 bit fell on a pixel that was 1, else 0; nothing else changes; n = 0 draws nothing. The wrap, the meaning of n = 0
and the reduction of EA are the spec's decisions D27, D25 and D7 (log 7, 20). -/
def Obligations.DrawXorsTheSprite : Prop :=
  ∀ (x y : Reg) (n : Nibble) (s : State), decode (patternXYN 0xD x y n.toNat) = .instr (.drw x y n) ∧
    ∃ t, exec (.drw x y n) s = .next t ∧ t = { s with fb := t.fb, v := t.v } ∧
      (∀ cx cy, t.fb.pixel cx cy = (s.fb.pixel cx cy ^^ s.spriteCovers x y n cx cy)) ∧
      (t.readReg vf).toNat ≤ 1 ∧
      (t.readReg vf = 1#8 ↔ ∃ cx cy, s.spriteCovers x y n cx cy = true ∧ s.fb.pixel cx cy = true) ∧
      (∀ r, r ≠ vf → t.readReg r = s.readReg r) ∧
      (n = 0#4 → t.fb = s.fb ∧ t.readReg vf = 0#8)

/-- Drawing the same sprite at the same place twice restores the framebuffer, and the second draw reports a collision
exactly where the sprite covers a pixel that was 0 before the first. The wrap is the spec's decision D27 (log 20). -/
def Obligations.DrawTwiceRestores : Prop :=
  ∀ (x y : Reg) (n : Nibble) (s t : State), exec (.drw x y n) s = .next t →
    t.readReg x = s.readReg x → t.readReg y = s.readReg y →
    ∃ u, exec (.drw x y n) t = .next u ∧ u.fb = s.fb ∧ (u.readReg vf).toNat ≤ 1 ∧
      (u.readReg vf = 1#8 ↔ ∃ cx cy, s.spriteCovers x y n cx cy = true ∧ s.fb.pixel cx cy = false)

/-- R256: of the instructions only CLS and DRW write the framebuffer, and reset zeroes it; a program reads it through
DRW's collision flag alone: with any other framebuffer, every instruction leaves the same state but for the framebuffer
and, for DRW, VF. -/
def Obligations.OnlyClearAndDrawTouchTheDisplay : Prop :=
  (∀ (i : Instr) (s t : State), exec i s = .next t → t.fb ≠ s.fb → i = .cls ∨ ∃ x y n, i = .drw x y n) ∧
  (∀ s t : State, transact .reset s = .next t → ∀ x y, t.fb.pixel x y = false) ∧
  (∀ (i : Instr) (s t : State) (g : Framebuffer), exec i s = .next t →
    ∃ u, exec i { s with fb := g } = .next u ∧ u = { t with fb := u.fb, v := u.v } ∧
      ∀ r, u.readReg r ≠ t.readReg r → r = vf ∧ ∃ x y n, i = .drw x y n)

/-! ## The whole machine -/

/-- The general registers an instruction writes (10_state.md R21, R22) are V[x] for the loads and the arithmetic, VF as a flag for 8xy4 to
8xyE and DRW, V[0] to V[x] for Fx65, and the latched register when a wait ends; no other instruction writes one. -/
def Obligations.OnlyListedInstructionsWriteRegisters : Prop :=
  (∀ (i : Instr) (s t : State) (k : Reg), exec i s = .next t → t.readReg k ≠ s.readReg k →
    i.mayWriteReg k = true) ∧
  ∀ (s t : State) (k : Reg), s.runState = .waitingKey → executeCycle s = .next t → t.readReg k ≠ s.readReg k →
    s.latch = some k

/-- R27: CALL adds 1 to SP where SP < 16, RET subtracts 1 where SP > 0, a violation raises its fault and leaves SP, no
other instruction writes SP or reads it, and SP is 0 after reset. -/
def Obligations.OnlyCallAndReturnTouchSp : Prop :=
  (∀ (nnn : Addr) (s t : State), exec (.call nnn) s = .next t →
    (s.sp.val < 16 → t.sp.val = s.sp.val + 1) ∧
    (s.sp.val = 16 → t.sp = s.sp ∧ t.faulted = true ∧ t.faultRec.map (·.kind) = some .stackOverflow)) ∧
  (∀ s t : State, exec .ret s = .next t →
    (0 < s.sp.val → t.sp.val + 1 = s.sp.val) ∧
    (s.sp.val = 0 → t.sp = s.sp ∧ t.faulted = true ∧ t.faultRec.map (·.kind) = some .stackUnderflow)) ∧
  (∀ (i : Instr) (s t : State) (q : Fin 17), i ≠ .ret → (∀ nnn, i ≠ .call nnn) → exec i s = .next t →
    t.sp = s.sp ∧ exec i { s with sp := q } = .next { t with sp := q }) ∧
  (∀ s t : State, transact .reset s = .next t → t.sp = 0)

/-- PC after the instructions that are no transfer (10_state.md R24): one that is no skip either leaves PC at the fetch
address + 2; a skip leaves it there or 2 further. -/
def Obligations.ProgramCounterAdvancesByTwo : Prop :=
  ∀ (s t : State) (i : Instr), s.runState = .running → decode (fetch16 s.mem s.pc) = .instr i →
    executeCycle s = .next t →
    (i.isTransfer = false → i.isSkip = false → t.pc = s.pc + 2#16) ∧
    (i.isSkip = true → t.pc = s.pc + 2#16 ∨ t.pc = s.pc + 4#16)

/-- Who writes what, over all instructions: the keypad none; DT only LD DT; I only LD I, ADD I, LD F; a byte of memory
only LD B and LD [I]; the stack only CALL; the key latches only LD Vx, K; the fault latch and record only CALL and RET
(10_state.md R26, R28, R29, R31, R32, R35, R37; 20_memory.md R55). -/
def Obligations.EachPieceOfStateHasItsWriters : Prop :=
  ∀ (i : Instr) (s t : State), exec i s = .next t →
    t.keys = s.keys ∧
    (t.dt ≠ s.dt → ∃ x, i = .ldDtVx x) ∧
    (t.i ≠ s.i → (∃ nnn, i = .ldI nnn) ∨ (∃ x, i = .addI x) ∨ ∃ x, i = .ldF x) ∧
    (∀ a, t.mem.read a ≠ s.mem.read a → (∃ x, i = .ldB x) ∨ ∃ x, i = .ldIVx x) ∧
    (t.stack ≠ s.stack → ∃ nnn, i = .call nnn) ∧
    (t.latch ≠ s.latch ∨ t.pendingKey ≠ s.pendingKey → ∃ x, i = .ldVxK x) ∧
    (t.faulted ≠ s.faulted ∨ t.faultRec ≠ s.faultRec → i = .ret ∨ ∃ nnn, i = .call nnn)

/-- Only RND consumes a random byte, and no instruction's effect depends on the byte source or on the host's schedule
but RND's on the byte it receives; no transaction consumes one but a cycle that runs RND. The count and the schedule are
the model's own (log 1, log 2); that RND consumes exactly one byte is the spec's decision D19 (log 15). -/
def Obligations.OnlyRandomReadsTheByteSource : Prop :=
  (∀ (i : Instr) (s t : State) (n : Nat) (q : List Transaction), exec i s = .next t →
    t.schedule = s.schedule ∧
    ((∃ x kk, i = .rnd x kk) → t.rndCount = s.rndCount + 1) ∧
    ((∀ x kk, i ≠ .rnd x kk) → t.rndCount = s.rndCount ∧
      exec i { s with rndCount := n, schedule := q } = .next { t with rndCount := n, schedule := q })) ∧
  ∀ (q : Transaction) (s t : State), transact q s = .next t → t.rndCount ≠ s.rndCount →
    q = .executeCycle ∧ s.runState = .running ∧ ∃ x kk, decode (fetch16 s.mem s.pc) = .instr (.rnd x kk)

/-- The upper bits of I are ignored on dereference: with I equal mod 4096, the instructions that use I as an address
have the same effect. The reduction mod 4096 is the spec's decision D7 (log 7). -/
def Obligations.UpperBitsOfIndexAreIgnored : Prop :=
  ∀ (i : Instr) (s t : State) (w : Word), i.dereferencesI = true → w.toNat % 4096 = s.i.toNat % 4096 →
    exec i s = .next t → exec i { s with i := w } = .next { t with i := w }
end

