-- ==== Sys2Proof/Laws/Decode.lean ====
section
/-! SUPPORT. Each field of each format reads back as written, and a word is its format applied to its fields. -/

namespace Sys2Proof

@[simp] theorem regOfNibble_nibbleOfReg (x : Reg) : regOfNibble (nibbleOfReg x) = x := by
  ext
  simp [regOfNibble, nibbleOfReg]

@[simp] theorem nibbleOfReg_regOfNibble (b : Nibble) : nibbleOfReg (regOfNibble b) = b := by
  simp [regOfNibble, nibbleOfReg]

/-! ### Format NNN -/

@[simp] theorem opClass_formatNNN (c : Nibble) (nnn : Addr) : opClass (formatNNN c nnn) = c := by
  apply BitVec.eq_of_getElem_eq
  intro i hi
  interval_cases i <;> simp [opClass, formatNNN]

@[simp] theorem fieldNNN_formatNNN (c : Nibble) (nnn : Addr) : fieldNNN (formatNNN c nnn) = nnn := by
  apply BitVec.eq_of_getElem_eq
  intro i hi
  interval_cases i <;> simp [fieldNNN, formatNNN]

theorem formatNNN_fields (w : Word) : formatNNN (opClass w) (fieldNNN w) = w := by
  apply BitVec.eq_of_getElem_eq
  intro i hi
  interval_cases i <;> simp [formatNNN, opClass, fieldNNN]

/-! ### Format XKK -/

@[simp] theorem opClass_formatXKK (c : Nibble) (x : Reg) (kk : Byte) : opClass (formatXKK c x kk) = c := by
  apply BitVec.eq_of_getElem_eq
  intro i hi
  interval_cases i <;> simp [opClass, formatXKK]

@[simp] theorem fieldX_formatXKK (c : Nibble) (x : Reg) (kk : Byte) : fieldX (formatXKK c x kk) = x := by
  have : (formatXKK c x kk).extractLsb' 8 4 = nibbleOfReg x := by
    apply BitVec.eq_of_getElem_eq
    intro i hi
    interval_cases i <;> simp [formatXKK]
  rw [fieldX, this, regOfNibble_nibbleOfReg]

@[simp] theorem fieldKK_formatXKK (c : Nibble) (x : Reg) (kk : Byte) : fieldKK (formatXKK c x kk) = kk := by
  apply BitVec.eq_of_getElem_eq
  intro i hi
  interval_cases i <;> simp [fieldKK, formatXKK]

theorem formatXKK_fields (w : Word) : formatXKK (opClass w) (fieldX w) (fieldKK w) = w := by
  apply BitVec.eq_of_getElem_eq
  intro i hi
  interval_cases i <;> simp [formatXKK, opClass, fieldX, fieldKK]

/-! ### Format XYN -/

@[simp] theorem opClass_formatXYN (c : Nibble) (x y : Reg) (n : Nibble) : opClass (formatXYN c x y n) = c := by
  apply BitVec.eq_of_getElem_eq
  intro i hi
  interval_cases i <;> simp [opClass, formatXYN]

@[simp] theorem fieldX_formatXYN (c : Nibble) (x y : Reg) (n : Nibble) : fieldX (formatXYN c x y n) = x := by
  have : (formatXYN c x y n).extractLsb' 8 4 = nibbleOfReg x := by
    apply BitVec.eq_of_getElem_eq
    intro i hi
    interval_cases i <;> simp [formatXYN]
  rw [fieldX, this, regOfNibble_nibbleOfReg]

@[simp] theorem fieldY_formatXYN (c : Nibble) (x y : Reg) (n : Nibble) : fieldY (formatXYN c x y n) = y := by
  have : (formatXYN c x y n).extractLsb' 4 4 = nibbleOfReg y := by
    apply BitVec.eq_of_getElem_eq
    intro i hi
    interval_cases i <;> simp [formatXYN]
  rw [fieldY, this, regOfNibble_nibbleOfReg]

@[simp] theorem fieldN_formatXYN (c : Nibble) (x y : Reg) (n : Nibble) : fieldN (formatXYN c x y n) = n := by
  apply BitVec.eq_of_getElem_eq
  intro i hi
  interval_cases i <;> simp [fieldN, formatXYN]

theorem formatXYN_fields (w : Word) : formatXYN (opClass w) (fieldX w) (fieldY w) (fieldN w) = w := by
  apply BitVec.eq_of_getElem_eq
  intro i hi
  interval_cases i <;> simp [formatXYN, opClass, fieldX, fieldY, fieldN]

/-! ### The two bytes of a word -/

@[simp] theorem wordOfBytes_bytes (w : Word) : wordOfBytes (hiByte w) (loByte w) = w := by
  apply BitVec.eq_of_getElem_eq
  intro i hi
  interval_cases i <;> simp [wordOfBytes, hiByte, loByte]

@[simp] theorem hiByte_wordOfBytes (hi lo : Byte) : hiByte (wordOfBytes hi lo) = hi := by
  apply BitVec.eq_of_getElem_eq
  intro i h
  interval_cases i <;> simp [wordOfBytes, hiByte]

@[simp] theorem loByte_wordOfBytes (hi lo : Byte) : loByte (wordOfBytes hi lo) = lo := by
  apply BitVec.eq_of_getElem_eq
  intro i h
  interval_cases i <;> simp [wordOfBytes, loByte]

theorem wordOfBytes_toNat (hi lo : Byte) : (wordOfBytes hi lo).toNat = hi.toNat * 256 + lo.toNat := by
  have h1 : (hi.setWidth 16 <<< 8).toNat = hi.toNat * 256 := by
    simp only [BitVec.toNat_shiftLeft, BitVec.toNat_setWidth, Nat.shiftLeft_eq]
    have := hi.isLt
    omega
  have h2 : (lo.setWidth 16).toNat = lo.toNat := by
    simp only [BitVec.toNat_setWidth]
    have := lo.isLt
    omega
  rw [wordOfBytes, BitVec.toNat_or, h1, h2]
  have h := Nat.two_pow_add_eq_or_of_lt (i := 8) lo.isLt hi.toNat
  rw [Nat.mul_comm hi.toNat 256]
  exact h.symm

/-- The decoder of bytes reads the two bytes of a word, big-endian, and leaves the rest. -/
theorem decodeBytes_bytesOfWord (w : Word) (rest : List Byte) :
    decodeBytes (bytesOfWord w ++ rest) =
      match decode w with
      | .instr i => .instr i rest
      | .unmatched => .unmatched w := by
  cases h : decode w <;> simp [bytesOfWord, decodeBytes, h]

end Sys2Proof
end

