-- ==== Sys2Proof/Laws/State.lean ====
section
/-! SUPPORT. One lemma per field per update of State, each true by rfl, so that no proof unfolds a record update; and
reading a register after writing one. -/

namespace Sys2Proof.Machine.State

/-! ### writeReg -/

@[simp] theorem writeReg_mem (s : State) (r : Reg) (b : Byte) : (s.writeReg r b).mem = s.mem := rfl
@[simp] theorem writeReg_v (s : State) (r : Reg) (b : Byte) : (s.writeReg r b).v = s.v.set r b := rfl
@[simp] theorem writeReg_i (s : State) (r : Reg) (b : Byte) : (s.writeReg r b).i = s.i := rfl
@[simp] theorem writeReg_pc (s : State) (r : Reg) (b : Byte) : (s.writeReg r b).pc = s.pc := rfl
@[simp] theorem writeReg_sp (s : State) (r : Reg) (b : Byte) : (s.writeReg r b).sp = s.sp := rfl
@[simp] theorem writeReg_stack (s : State) (r : Reg) (b : Byte) : (s.writeReg r b).stack = s.stack := rfl
@[simp] theorem writeReg_dt (s : State) (r : Reg) (b : Byte) : (s.writeReg r b).dt = s.dt := rfl
@[simp] theorem writeReg_fb (s : State) (r : Reg) (b : Byte) : (s.writeReg r b).fb = s.fb := rfl
@[simp] theorem writeReg_keys (s : State) (r : Reg) (b : Byte) : (s.writeReg r b).keys = s.keys := rfl
@[simp] theorem writeReg_latch (s : State) (r : Reg) (b : Byte) : (s.writeReg r b).latch = s.latch := rfl
@[simp] theorem writeReg_pendingKey (s : State) (r : Reg) (b : Byte) : (s.writeReg r b).pendingKey = s.pendingKey := rfl
@[simp] theorem writeReg_faulted (s : State) (r : Reg) (b : Byte) : (s.writeReg r b).faulted = s.faulted := rfl
@[simp] theorem writeReg_faultRec (s : State) (r : Reg) (b : Byte) : (s.writeReg r b).faultRec = s.faultRec := rfl
@[simp] theorem writeReg_rndCount (s : State) (r : Reg) (b : Byte) : (s.writeReg r b).rndCount = s.rndCount := rfl
@[simp] theorem writeReg_schedule (s : State) (r : Reg) (b : Byte) : (s.writeReg r b).schedule = s.schedule := rfl

/-! ### writeI -/

@[simp] theorem writeI_mem (s : State) (w : Word) : (s.writeI w).mem = s.mem := rfl
@[simp] theorem writeI_v (s : State) (w : Word) : (s.writeI w).v = s.v := rfl
@[simp] theorem writeI_i (s : State) (w : Word) : (s.writeI w).i = w := rfl
@[simp] theorem writeI_pc (s : State) (w : Word) : (s.writeI w).pc = s.pc := rfl
@[simp] theorem writeI_sp (s : State) (w : Word) : (s.writeI w).sp = s.sp := rfl
@[simp] theorem writeI_stack (s : State) (w : Word) : (s.writeI w).stack = s.stack := rfl
@[simp] theorem writeI_dt (s : State) (w : Word) : (s.writeI w).dt = s.dt := rfl
@[simp] theorem writeI_fb (s : State) (w : Word) : (s.writeI w).fb = s.fb := rfl
@[simp] theorem writeI_keys (s : State) (w : Word) : (s.writeI w).keys = s.keys := rfl
@[simp] theorem writeI_latch (s : State) (w : Word) : (s.writeI w).latch = s.latch := rfl
@[simp] theorem writeI_pendingKey (s : State) (w : Word) : (s.writeI w).pendingKey = s.pendingKey := rfl
@[simp] theorem writeI_faulted (s : State) (w : Word) : (s.writeI w).faulted = s.faulted := rfl
@[simp] theorem writeI_faultRec (s : State) (w : Word) : (s.writeI w).faultRec = s.faultRec := rfl
@[simp] theorem writeI_rndCount (s : State) (w : Word) : (s.writeI w).rndCount = s.rndCount := rfl
@[simp] theorem writeI_schedule (s : State) (w : Word) : (s.writeI w).schedule = s.schedule := rfl

/-! ### writePc -/

@[simp] theorem writePc_mem (s : State) (w : Word) : (s.writePc w).mem = s.mem := rfl
@[simp] theorem writePc_v (s : State) (w : Word) : (s.writePc w).v = s.v := rfl
@[simp] theorem writePc_i (s : State) (w : Word) : (s.writePc w).i = s.i := rfl
@[simp] theorem writePc_pc (s : State) (w : Word) : (s.writePc w).pc = w := rfl
@[simp] theorem writePc_sp (s : State) (w : Word) : (s.writePc w).sp = s.sp := rfl
@[simp] theorem writePc_stack (s : State) (w : Word) : (s.writePc w).stack = s.stack := rfl
@[simp] theorem writePc_dt (s : State) (w : Word) : (s.writePc w).dt = s.dt := rfl
@[simp] theorem writePc_fb (s : State) (w : Word) : (s.writePc w).fb = s.fb := rfl
@[simp] theorem writePc_keys (s : State) (w : Word) : (s.writePc w).keys = s.keys := rfl
@[simp] theorem writePc_latch (s : State) (w : Word) : (s.writePc w).latch = s.latch := rfl
@[simp] theorem writePc_pendingKey (s : State) (w : Word) : (s.writePc w).pendingKey = s.pendingKey := rfl
@[simp] theorem writePc_faulted (s : State) (w : Word) : (s.writePc w).faulted = s.faulted := rfl
@[simp] theorem writePc_faultRec (s : State) (w : Word) : (s.writePc w).faultRec = s.faultRec := rfl
@[simp] theorem writePc_rndCount (s : State) (w : Word) : (s.writePc w).rndCount = s.rndCount := rfl
@[simp] theorem writePc_schedule (s : State) (w : Word) : (s.writePc w).schedule = s.schedule := rfl

/-! ### advance -/

@[simp] theorem advance_mem (s : State) : (s.advance).mem = s.mem := rfl
@[simp] theorem advance_v (s : State) : (s.advance).v = s.v := rfl
@[simp] theorem advance_i (s : State) : (s.advance).i = s.i := rfl
@[simp] theorem advance_pc (s : State) : (s.advance).pc = s.pc + 2#16 := rfl
@[simp] theorem advance_sp (s : State) : (s.advance).sp = s.sp := rfl
@[simp] theorem advance_stack (s : State) : (s.advance).stack = s.stack := rfl
@[simp] theorem advance_dt (s : State) : (s.advance).dt = s.dt := rfl
@[simp] theorem advance_fb (s : State) : (s.advance).fb = s.fb := rfl
@[simp] theorem advance_keys (s : State) : (s.advance).keys = s.keys := rfl
@[simp] theorem advance_latch (s : State) : (s.advance).latch = s.latch := rfl
@[simp] theorem advance_pendingKey (s : State) : (s.advance).pendingKey = s.pendingKey := rfl
@[simp] theorem advance_faulted (s : State) : (s.advance).faulted = s.faulted := rfl
@[simp] theorem advance_faultRec (s : State) : (s.advance).faultRec = s.faultRec := rfl
@[simp] theorem advance_rndCount (s : State) : (s.advance).rndCount = s.rndCount := rfl
@[simp] theorem advance_schedule (s : State) : (s.advance).schedule = s.schedule := rfl

/-! ### writeDt -/

@[simp] theorem writeDt_mem (s : State) (b : Byte) : (s.writeDt b).mem = s.mem := rfl
@[simp] theorem writeDt_v (s : State) (b : Byte) : (s.writeDt b).v = s.v := rfl
@[simp] theorem writeDt_i (s : State) (b : Byte) : (s.writeDt b).i = s.i := rfl
@[simp] theorem writeDt_pc (s : State) (b : Byte) : (s.writeDt b).pc = s.pc := rfl
@[simp] theorem writeDt_sp (s : State) (b : Byte) : (s.writeDt b).sp = s.sp := rfl
@[simp] theorem writeDt_stack (s : State) (b : Byte) : (s.writeDt b).stack = s.stack := rfl
@[simp] theorem writeDt_dt (s : State) (b : Byte) : (s.writeDt b).dt = b := rfl
@[simp] theorem writeDt_fb (s : State) (b : Byte) : (s.writeDt b).fb = s.fb := rfl
@[simp] theorem writeDt_keys (s : State) (b : Byte) : (s.writeDt b).keys = s.keys := rfl
@[simp] theorem writeDt_latch (s : State) (b : Byte) : (s.writeDt b).latch = s.latch := rfl
@[simp] theorem writeDt_pendingKey (s : State) (b : Byte) : (s.writeDt b).pendingKey = s.pendingKey := rfl
@[simp] theorem writeDt_faulted (s : State) (b : Byte) : (s.writeDt b).faulted = s.faulted := rfl
@[simp] theorem writeDt_faultRec (s : State) (b : Byte) : (s.writeDt b).faultRec = s.faultRec := rfl
@[simp] theorem writeDt_rndCount (s : State) (b : Byte) : (s.writeDt b).rndCount = s.rndCount := rfl
@[simp] theorem writeDt_schedule (s : State) (b : Byte) : (s.writeDt b).schedule = s.schedule := rfl

/-! ### writeEA -/

@[simp] theorem writeEA_mem (s : State) (k : Nat) (b : Byte) : (s.writeEA k b).mem = s.mem.write (effectiveAddress s.i k) b := rfl
@[simp] theorem writeEA_v (s : State) (k : Nat) (b : Byte) : (s.writeEA k b).v = s.v := rfl
@[simp] theorem writeEA_i (s : State) (k : Nat) (b : Byte) : (s.writeEA k b).i = s.i := rfl
@[simp] theorem writeEA_pc (s : State) (k : Nat) (b : Byte) : (s.writeEA k b).pc = s.pc := rfl
@[simp] theorem writeEA_sp (s : State) (k : Nat) (b : Byte) : (s.writeEA k b).sp = s.sp := rfl
@[simp] theorem writeEA_stack (s : State) (k : Nat) (b : Byte) : (s.writeEA k b).stack = s.stack := rfl
@[simp] theorem writeEA_dt (s : State) (k : Nat) (b : Byte) : (s.writeEA k b).dt = s.dt := rfl
@[simp] theorem writeEA_fb (s : State) (k : Nat) (b : Byte) : (s.writeEA k b).fb = s.fb := rfl
@[simp] theorem writeEA_keys (s : State) (k : Nat) (b : Byte) : (s.writeEA k b).keys = s.keys := rfl
@[simp] theorem writeEA_latch (s : State) (k : Nat) (b : Byte) : (s.writeEA k b).latch = s.latch := rfl
@[simp] theorem writeEA_pendingKey (s : State) (k : Nat) (b : Byte) : (s.writeEA k b).pendingKey = s.pendingKey := rfl
@[simp] theorem writeEA_faulted (s : State) (k : Nat) (b : Byte) : (s.writeEA k b).faulted = s.faulted := rfl
@[simp] theorem writeEA_faultRec (s : State) (k : Nat) (b : Byte) : (s.writeEA k b).faultRec = s.faultRec := rfl
@[simp] theorem writeEA_rndCount (s : State) (k : Nat) (b : Byte) : (s.writeEA k b).rndCount = s.rndCount := rfl
@[simp] theorem writeEA_schedule (s : State) (k : Nat) (b : Byte) : (s.writeEA k b).schedule = s.schedule := rfl

/-! ### pushPc -/

@[simp] theorem pushPc_mem (s : State) (h : s.sp.val < 16) : (s.pushPc h).mem = s.mem := rfl
@[simp] theorem pushPc_v (s : State) (h : s.sp.val < 16) : (s.pushPc h).v = s.v := rfl
@[simp] theorem pushPc_i (s : State) (h : s.sp.val < 16) : (s.pushPc h).i = s.i := rfl
@[simp] theorem pushPc_pc (s : State) (h : s.sp.val < 16) : (s.pushPc h).pc = s.pc := rfl
@[simp] theorem pushPc_sp (s : State) (h : s.sp.val < 16) : (s.pushPc h).sp = ⟨s.sp.val + 1, by omega⟩ := rfl
@[simp] theorem pushPc_stack (s : State) (h : s.sp.val < 16) : (s.pushPc h).stack = s.stack.set s.sp.val s.pc h := rfl
@[simp] theorem pushPc_dt (s : State) (h : s.sp.val < 16) : (s.pushPc h).dt = s.dt := rfl
@[simp] theorem pushPc_fb (s : State) (h : s.sp.val < 16) : (s.pushPc h).fb = s.fb := rfl
@[simp] theorem pushPc_keys (s : State) (h : s.sp.val < 16) : (s.pushPc h).keys = s.keys := rfl
@[simp] theorem pushPc_latch (s : State) (h : s.sp.val < 16) : (s.pushPc h).latch = s.latch := rfl
@[simp] theorem pushPc_pendingKey (s : State) (h : s.sp.val < 16) : (s.pushPc h).pendingKey = s.pendingKey := rfl
@[simp] theorem pushPc_faulted (s : State) (h : s.sp.val < 16) : (s.pushPc h).faulted = s.faulted := rfl
@[simp] theorem pushPc_faultRec (s : State) (h : s.sp.val < 16) : (s.pushPc h).faultRec = s.faultRec := rfl
@[simp] theorem pushPc_rndCount (s : State) (h : s.sp.val < 16) : (s.pushPc h).rndCount = s.rndCount := rfl
@[simp] theorem pushPc_schedule (s : State) (h : s.sp.val < 16) : (s.pushPc h).schedule = s.schedule := rfl

/-! ### popPc -/

@[simp] theorem popPc_mem (s : State) (h : 0 < s.sp.val) : (s.popPc h).mem = s.mem := rfl
@[simp] theorem popPc_v (s : State) (h : 0 < s.sp.val) : (s.popPc h).v = s.v := rfl
@[simp] theorem popPc_i (s : State) (h : 0 < s.sp.val) : (s.popPc h).i = s.i := rfl
@[simp] theorem popPc_pc (s : State) (h : 0 < s.sp.val) : (s.popPc h).pc = s.stack[s.sp.val - 1]'(by omega) := rfl
@[simp] theorem popPc_sp (s : State) (h : 0 < s.sp.val) : (s.popPc h).sp = ⟨s.sp.val - 1, by omega⟩ := rfl
@[simp] theorem popPc_stack (s : State) (h : 0 < s.sp.val) : (s.popPc h).stack = s.stack := rfl
@[simp] theorem popPc_dt (s : State) (h : 0 < s.sp.val) : (s.popPc h).dt = s.dt := rfl
@[simp] theorem popPc_fb (s : State) (h : 0 < s.sp.val) : (s.popPc h).fb = s.fb := rfl
@[simp] theorem popPc_keys (s : State) (h : 0 < s.sp.val) : (s.popPc h).keys = s.keys := rfl
@[simp] theorem popPc_latch (s : State) (h : 0 < s.sp.val) : (s.popPc h).latch = s.latch := rfl
@[simp] theorem popPc_pendingKey (s : State) (h : 0 < s.sp.val) : (s.popPc h).pendingKey = s.pendingKey := rfl
@[simp] theorem popPc_faulted (s : State) (h : 0 < s.sp.val) : (s.popPc h).faulted = s.faulted := rfl
@[simp] theorem popPc_faultRec (s : State) (h : 0 < s.sp.val) : (s.popPc h).faultRec = s.faultRec := rfl
@[simp] theorem popPc_rndCount (s : State) (h : 0 < s.sp.val) : (s.popPc h).rndCount = s.rndCount := rfl
@[simp] theorem popPc_schedule (s : State) (h : 0 < s.sp.val) : (s.popPc h).schedule = s.schedule := rfl

/-! ### raiseFault -/

@[simp] theorem raiseFault_mem (s : State) (kind : FaultKind) (op a : Word) : (s.raiseFault kind op a).mem = s.mem := rfl
@[simp] theorem raiseFault_v (s : State) (kind : FaultKind) (op a : Word) : (s.raiseFault kind op a).v = s.v := rfl
@[simp] theorem raiseFault_i (s : State) (kind : FaultKind) (op a : Word) : (s.raiseFault kind op a).i = s.i := rfl
@[simp] theorem raiseFault_pc (s : State) (kind : FaultKind) (op a : Word) : (s.raiseFault kind op a).pc = s.pc := rfl
@[simp] theorem raiseFault_sp (s : State) (kind : FaultKind) (op a : Word) : (s.raiseFault kind op a).sp = s.sp := rfl
@[simp] theorem raiseFault_stack (s : State) (kind : FaultKind) (op a : Word) : (s.raiseFault kind op a).stack = s.stack := rfl
@[simp] theorem raiseFault_dt (s : State) (kind : FaultKind) (op a : Word) : (s.raiseFault kind op a).dt = s.dt := rfl
@[simp] theorem raiseFault_fb (s : State) (kind : FaultKind) (op a : Word) : (s.raiseFault kind op a).fb = s.fb := rfl
@[simp] theorem raiseFault_keys (s : State) (kind : FaultKind) (op a : Word) : (s.raiseFault kind op a).keys = s.keys := rfl
@[simp] theorem raiseFault_latch (s : State) (kind : FaultKind) (op a : Word) : (s.raiseFault kind op a).latch = s.latch := rfl
@[simp] theorem raiseFault_pendingKey (s : State) (kind : FaultKind) (op a : Word) : (s.raiseFault kind op a).pendingKey = s.pendingKey := rfl
@[simp] theorem raiseFault_faulted (s : State) (kind : FaultKind) (op a : Word) : (s.raiseFault kind op a).faulted = true := rfl
@[simp] theorem raiseFault_faultRec (s : State) (kind : FaultKind) (op a : Word) : (s.raiseFault kind op a).faultRec = some { kind := kind, opcode := op, pc := a } := rfl
@[simp] theorem raiseFault_rndCount (s : State) (kind : FaultKind) (op a : Word) : (s.raiseFault kind op a).rndCount = s.rndCount := rfl
@[simp] theorem raiseFault_schedule (s : State) (kind : FaultKind) (op a : Word) : (s.raiseFault kind op a).schedule = s.schedule := rfl

/-! ### bodyFault -/

@[simp] theorem bodyFault_mem (s : State) (kind : FaultKind) (j : Instr) : (s.bodyFault kind j).mem = s.mem := rfl
@[simp] theorem bodyFault_v (s : State) (kind : FaultKind) (j : Instr) : (s.bodyFault kind j).v = s.v := rfl
@[simp] theorem bodyFault_i (s : State) (kind : FaultKind) (j : Instr) : (s.bodyFault kind j).i = s.i := rfl
@[simp] theorem bodyFault_pc (s : State) (kind : FaultKind) (j : Instr) : (s.bodyFault kind j).pc = s.pc := rfl
@[simp] theorem bodyFault_sp (s : State) (kind : FaultKind) (j : Instr) : (s.bodyFault kind j).sp = s.sp := rfl
@[simp] theorem bodyFault_stack (s : State) (kind : FaultKind) (j : Instr) : (s.bodyFault kind j).stack = s.stack := rfl
@[simp] theorem bodyFault_dt (s : State) (kind : FaultKind) (j : Instr) : (s.bodyFault kind j).dt = s.dt := rfl
@[simp] theorem bodyFault_fb (s : State) (kind : FaultKind) (j : Instr) : (s.bodyFault kind j).fb = s.fb := rfl
@[simp] theorem bodyFault_keys (s : State) (kind : FaultKind) (j : Instr) : (s.bodyFault kind j).keys = s.keys := rfl
@[simp] theorem bodyFault_latch (s : State) (kind : FaultKind) (j : Instr) : (s.bodyFault kind j).latch = s.latch := rfl
@[simp] theorem bodyFault_pendingKey (s : State) (kind : FaultKind) (j : Instr) : (s.bodyFault kind j).pendingKey = s.pendingKey := rfl
@[simp] theorem bodyFault_faulted (s : State) (kind : FaultKind) (j : Instr) : (s.bodyFault kind j).faulted = true := rfl
@[simp] theorem bodyFault_faultRec (s : State) (kind : FaultKind) (j : Instr) : (s.bodyFault kind j).faultRec = some { kind := kind, opcode := encode j, pc := s.pc - 2#16 } := rfl
@[simp] theorem bodyFault_rndCount (s : State) (kind : FaultKind) (j : Instr) : (s.bodyFault kind j).rndCount = s.rndCount := rfl
@[simp] theorem bodyFault_schedule (s : State) (kind : FaultKind) (j : Instr) : (s.bodyFault kind j).schedule = s.schedule := rfl

/-! ### consumeRandom -/

@[simp] theorem consumeRandom_mem (s : State) : (s.consumeRandom).mem = s.mem := rfl
@[simp] theorem consumeRandom_v (s : State) : (s.consumeRandom).v = s.v := rfl
@[simp] theorem consumeRandom_i (s : State) : (s.consumeRandom).i = s.i := rfl
@[simp] theorem consumeRandom_pc (s : State) : (s.consumeRandom).pc = s.pc := rfl
@[simp] theorem consumeRandom_sp (s : State) : (s.consumeRandom).sp = s.sp := rfl
@[simp] theorem consumeRandom_stack (s : State) : (s.consumeRandom).stack = s.stack := rfl
@[simp] theorem consumeRandom_dt (s : State) : (s.consumeRandom).dt = s.dt := rfl
@[simp] theorem consumeRandom_fb (s : State) : (s.consumeRandom).fb = s.fb := rfl
@[simp] theorem consumeRandom_keys (s : State) : (s.consumeRandom).keys = s.keys := rfl
@[simp] theorem consumeRandom_latch (s : State) : (s.consumeRandom).latch = s.latch := rfl
@[simp] theorem consumeRandom_pendingKey (s : State) : (s.consumeRandom).pendingKey = s.pendingKey := rfl
@[simp] theorem consumeRandom_faulted (s : State) : (s.consumeRandom).faulted = s.faulted := rfl
@[simp] theorem consumeRandom_faultRec (s : State) : (s.consumeRandom).faultRec = s.faultRec := rfl
@[simp] theorem consumeRandom_rndCount (s : State) : (s.consumeRandom).rndCount = s.rndCount + 1 := rfl
@[simp] theorem consumeRandom_schedule (s : State) : (s.consumeRandom).schedule = s.schedule := rfl

/-! ### beginWait -/

@[simp] theorem beginWait_mem (s : State) (x : Reg) : (s.beginWait x).mem = s.mem := rfl
@[simp] theorem beginWait_v (s : State) (x : Reg) : (s.beginWait x).v = s.v := rfl
@[simp] theorem beginWait_i (s : State) (x : Reg) : (s.beginWait x).i = s.i := rfl
@[simp] theorem beginWait_pc (s : State) (x : Reg) : (s.beginWait x).pc = s.pc := rfl
@[simp] theorem beginWait_sp (s : State) (x : Reg) : (s.beginWait x).sp = s.sp := rfl
@[simp] theorem beginWait_stack (s : State) (x : Reg) : (s.beginWait x).stack = s.stack := rfl
@[simp] theorem beginWait_dt (s : State) (x : Reg) : (s.beginWait x).dt = s.dt := rfl
@[simp] theorem beginWait_fb (s : State) (x : Reg) : (s.beginWait x).fb = s.fb := rfl
@[simp] theorem beginWait_keys (s : State) (x : Reg) : (s.beginWait x).keys = s.keys := rfl
@[simp] theorem beginWait_latch (s : State) (x : Reg) : (s.beginWait x).latch = some x := rfl
@[simp] theorem beginWait_pendingKey (s : State) (x : Reg) : (s.beginWait x).pendingKey = none := rfl
@[simp] theorem beginWait_faulted (s : State) (x : Reg) : (s.beginWait x).faulted = s.faulted := rfl
@[simp] theorem beginWait_faultRec (s : State) (x : Reg) : (s.beginWait x).faultRec = s.faultRec := rfl
@[simp] theorem beginWait_rndCount (s : State) (x : Reg) : (s.beginWait x).rndCount = s.rndCount := rfl
@[simp] theorem beginWait_schedule (s : State) (x : Reg) : (s.beginWait x).schedule = s.schedule := rfl

/-! ### endWait -/

@[simp] theorem endWait_mem (s : State) (t : Reg) (k : KeyIx) : (s.endWait t k).mem = s.mem := rfl
@[simp] theorem endWait_v (s : State) (t : Reg) (k : KeyIx) : (s.endWait t k).v = s.v.set t (byteOfKey k) := rfl
@[simp] theorem endWait_i (s : State) (t : Reg) (k : KeyIx) : (s.endWait t k).i = s.i := rfl
@[simp] theorem endWait_pc (s : State) (t : Reg) (k : KeyIx) : (s.endWait t k).pc = s.pc := rfl
@[simp] theorem endWait_sp (s : State) (t : Reg) (k : KeyIx) : (s.endWait t k).sp = s.sp := rfl
@[simp] theorem endWait_stack (s : State) (t : Reg) (k : KeyIx) : (s.endWait t k).stack = s.stack := rfl
@[simp] theorem endWait_dt (s : State) (t : Reg) (k : KeyIx) : (s.endWait t k).dt = s.dt := rfl
@[simp] theorem endWait_fb (s : State) (t : Reg) (k : KeyIx) : (s.endWait t k).fb = s.fb := rfl
@[simp] theorem endWait_keys (s : State) (t : Reg) (k : KeyIx) : (s.endWait t k).keys = s.keys := rfl
@[simp] theorem endWait_latch (s : State) (t : Reg) (k : KeyIx) : (s.endWait t k).latch = none := rfl
@[simp] theorem endWait_pendingKey (s : State) (t : Reg) (k : KeyIx) : (s.endWait t k).pendingKey = none := rfl
@[simp] theorem endWait_faulted (s : State) (t : Reg) (k : KeyIx) : (s.endWait t k).faulted = s.faulted := rfl
@[simp] theorem endWait_faultRec (s : State) (t : Reg) (k : KeyIx) : (s.endWait t k).faultRec = s.faultRec := rfl
@[simp] theorem endWait_rndCount (s : State) (t : Reg) (k : KeyIx) : (s.endWait t k).rndCount = s.rndCount := rfl
@[simp] theorem endWait_schedule (s : State) (t : Reg) (k : KeyIx) : (s.endWait t k).schedule = s.schedule := rfl

/-! ### popSchedule -/

@[simp] theorem popSchedule_mem (s : State) : (s.popSchedule).mem = s.mem := rfl
@[simp] theorem popSchedule_v (s : State) : (s.popSchedule).v = s.v := rfl
@[simp] theorem popSchedule_i (s : State) : (s.popSchedule).i = s.i := rfl
@[simp] theorem popSchedule_pc (s : State) : (s.popSchedule).pc = s.pc := rfl
@[simp] theorem popSchedule_sp (s : State) : (s.popSchedule).sp = s.sp := rfl
@[simp] theorem popSchedule_stack (s : State) : (s.popSchedule).stack = s.stack := rfl
@[simp] theorem popSchedule_dt (s : State) : (s.popSchedule).dt = s.dt := rfl
@[simp] theorem popSchedule_fb (s : State) : (s.popSchedule).fb = s.fb := rfl
@[simp] theorem popSchedule_keys (s : State) : (s.popSchedule).keys = s.keys := rfl
@[simp] theorem popSchedule_latch (s : State) : (s.popSchedule).latch = s.latch := rfl
@[simp] theorem popSchedule_pendingKey (s : State) : (s.popSchedule).pendingKey = s.pendingKey := rfl
@[simp] theorem popSchedule_faulted (s : State) : (s.popSchedule).faulted = s.faulted := rfl
@[simp] theorem popSchedule_faultRec (s : State) : (s.popSchedule).faultRec = s.faultRec := rfl
@[simp] theorem popSchedule_rndCount (s : State) : (s.popSchedule).rndCount = s.rndCount := rfl
@[simp] theorem popSchedule_schedule (s : State) : (s.popSchedule).schedule = s.schedule.tail := rfl

/-! ### resetCore -/

@[simp] theorem resetCore_mem (s : State) : (s.resetCore).mem = State.reset.mem := rfl
@[simp] theorem resetCore_v (s : State) : (s.resetCore).v = State.reset.v := rfl
@[simp] theorem resetCore_i (s : State) : (s.resetCore).i = State.reset.i := rfl
@[simp] theorem resetCore_pc (s : State) : (s.resetCore).pc = State.reset.pc := rfl
@[simp] theorem resetCore_sp (s : State) : (s.resetCore).sp = State.reset.sp := rfl
@[simp] theorem resetCore_stack (s : State) : (s.resetCore).stack = State.reset.stack := rfl
@[simp] theorem resetCore_dt (s : State) : (s.resetCore).dt = State.reset.dt := rfl
@[simp] theorem resetCore_fb (s : State) : (s.resetCore).fb = State.reset.fb := rfl
@[simp] theorem resetCore_keys (s : State) : (s.resetCore).keys = State.reset.keys := rfl
@[simp] theorem resetCore_latch (s : State) : (s.resetCore).latch = State.reset.latch := rfl
@[simp] theorem resetCore_pendingKey (s : State) : (s.resetCore).pendingKey = State.reset.pendingKey := rfl
@[simp] theorem resetCore_faulted (s : State) : (s.resetCore).faulted = State.reset.faulted := rfl
@[simp] theorem resetCore_faultRec (s : State) : (s.resetCore).faultRec = State.reset.faultRec := rfl
@[simp] theorem resetCore_rndCount (s : State) : (s.resetCore).rndCount = s.rndCount := rfl
@[simp] theorem resetCore_schedule (s : State) : (s.resetCore).schedule = s.schedule := rfl

/-! ### skipIf, which changes PC alone -/

theorem skipIf_pc (s : State) (c : Bool) : (s.skipIf c).pc = if c then s.pc + 2#16 else s.pc := by
  cases c <;> rfl

theorem skipIf_eq (s : State) (c : Bool) : s.skipIf c = { s with pc := if c then s.pc + 2#16 else s.pc } := by
  cases c <;> rfl

/-! ### Reading a register after a write -/

theorem readReg_writeReg (s : State) (r k : Reg) (b : Byte) :
    (s.writeReg r b).readReg k = if k = r then b else s.readReg k := by
  unfold readReg writeReg
  simp only [Fin.getElem_fin, Vector.getElem_set, Fin.ext_iff, eq_comm]

@[simp] theorem readReg_writeReg_same (s : State) (r : Reg) (b : Byte) : (s.writeReg r b).readReg r = b := by
  simp [readReg_writeReg]

theorem readReg_writeReg_other (s : State) {r k : Reg} (b : Byte) (h : k ≠ r) :
    (s.writeReg r b).readReg k = s.readReg k := by
  simp [readReg_writeReg, h]

/-- Reading a register sees the register file alone. -/
theorem readReg_congr {s t : State} (h : s.v = t.v) (k : Reg) : s.readReg k = t.readReg k := by
  simp [readReg, h]

/-- Two states that agree off the registers and on every register are equal. -/
theorem ext_of_readReg {s t : State} (h : t = { s with v := t.v }) (hv : ∀ k, t.readReg k = s.readReg k) : t = s := by
  have : t.v = s.v := by
    apply Vector.ext
    intro k hk
    exact hv ⟨k, hk⟩
  rw [h, this]

/-- The two writes of a flagged instruction commute where they name different registers. -/
theorem writeReg_comm (s : State) {r k : Reg} (h : r ≠ k) (a b : Byte) :
    (s.writeReg r a).writeReg k b = (s.writeReg k b).writeReg r a := by
  unfold writeReg
  have : (s.v.set r a).set k b = (s.v.set k b).set r a := by
    apply Vector.ext
    intro j hj
    simp only [Vector.getElem_set]
    have := Fin.val_ne_of_ne h
    split <;> split <;> simp_all
  simp [this]

end Sys2Proof.Machine.State
end

