-- ==== Sys2Proof/Laws/Exec.lean ====
section
/-! SUPPORT. What a body, a cycle and a step can do, said once: every body answers a next state, a cycle takes one of five
courses, and the run state in terms of its fields. -/

namespace Sys2Proof.Machine

/-- Every body answers a next state. -/
theorem exec_answers_next (i : Instr) (s : State) : ∃ t, exec i s = .next t := by
  cases i <;> first
    | exact ⟨_, rfl⟩
    | (simp only [exec, execRet, execCall]; split <;> exact ⟨_, rfl⟩)

/-- RET with an occupied slot. -/
theorem execRet_occupied {s : State} (h : 0 < s.sp.val) : exec .ret s = .next (s.popPc h) := by
  simp only [exec, execRet, dif_pos h]

/-- RET with none. -/
theorem execRet_empty {s : State} (h : s.sp.val = 0) : exec .ret s = .next (s.bodyFault .stackUnderflow .ret) := by
  simp only [exec, execRet, dif_neg (show ¬ 0 < s.sp.val by omega)]

/-- CALL with a free slot. -/
theorem execCall_free {s : State} (nnn : Addr) (h : s.sp.val < 16) :
    exec (.call nnn) s = .next ((s.pushPc h).writePc (zextAddr nnn)) := by
  simp only [exec, execCall, dif_pos h]

/-- CALL with none. -/
theorem execCall_full {s : State} (nnn : Addr) (h : s.sp.val = 16) :
    exec (.call nnn) s = .next (s.bodyFault .stackOverflow (.call nnn)) := by
  simp only [exec, execCall, dif_neg (show ¬ s.sp.val < 16 by omega)]

/-- Running, in terms of the fields (10_state.md R34). -/
theorem runState_running_iff (s : State) : s.runState = .running ↔ s.faulted = false ∧ s.latch = none := by
  unfold State.runState
  cases s.faulted <;> cases s.latch <;> simp

/-- WaitingKey, in terms of the fields (10_state.md R34). -/
theorem runState_waiting_iff (s : State) :
    s.runState = .waitingKey ↔ s.faulted = false ∧ s.latch.isSome = true := by
  unfold State.runState
  cases s.faulted <;> cases s.latch <;> simp

/-- Faulted, in terms of the fields (10_state.md R34). -/
theorem runState_faulted_iff (s : State) : s.runState = .faulted ↔ s.faulted = true := by
  unfold State.runState
  cases s.faulted <;> cases s.latch <;> simp

/-- A cycle of a Faulted core. -/
theorem executeCycle_of_faulted {s : State} (h : s.faulted = true) : executeCycle s = .next s := by
  simp [executeCycle, h]

/-- A cycle of a Running core fetches. -/
theorem executeCycle_of_running {s : State} (h : s.runState = .running) : executeCycle s = runOpcode s := by
  obtain ⟨hf, hl⟩ := (runState_running_iff s).1 h
  simp [executeCycle, hf, hl]

/-- A cycle of a waiting core with a pending key. -/
theorem executeCycle_of_pending {s : State} {x : Reg} {k : KeyIx} (h : s.runState = .waitingKey)
    (hl : s.latch = some x) (hp : s.pendingKey = some k) : executeCycle s = .next (s.endWait x k) := by
  simp [executeCycle, ((runState_waiting_iff s).1 h).1, hl, hp]

/-- A cycle of a waiting core with no pending key. -/
theorem executeCycle_of_waiting {s : State} (h : s.runState = .waitingKey) (hp : s.pendingKey = none) :
    executeCycle s = .next s := by
  obtain ⟨hf, hl⟩ := (runState_waiting_iff s).1 h
  obtain ⟨x, hx⟩ := Option.isSome_iff_exists.1 hl
  simp [executeCycle, hf, hx, hp]

/-- The fetched word is an instruction. -/
theorem runOpcode_of_instr {s : State} {i : Instr} (h : decode (fetch16 s.mem s.pc) = .instr i) :
    runOpcode s = exec i s.advance := by
  simp [runOpcode, h]

/-- The fetched word is none. -/
theorem runOpcode_of_unmatched {s : State} (h : decode (fetch16 s.mem s.pc) = .unmatched) :
    runOpcode s = .next (s.advance.raiseFault .unknownOpcode (fetch16 s.mem s.pc) s.pc) := by
  simp [runOpcode, h]

/-- The five courses a cycle can take (40_cycle_and_interface.md R101, R106). -/
theorem executeCycle_cases {s t : State} (h : executeCycle s = .next t) :
    (s.faulted = true ∧ t = s) ∨
    (∃ x k, s.runState = .waitingKey ∧ s.latch = some x ∧ s.pendingKey = some k ∧ t = s.endWait x k) ∨
    (s.runState = .waitingKey ∧ s.pendingKey = none ∧ t = s) ∨
    (∃ i, s.runState = .running ∧ decode (fetch16 s.mem s.pc) = .instr i ∧ exec i s.advance = .next t) ∨
    (s.runState = .running ∧ decode (fetch16 s.mem s.pc) = .unmatched ∧
      t = s.advance.raiseFault .unknownOpcode (fetch16 s.mem s.pc) s.pc) := by
  rcases hr : s.runState with _ | _ | _
  · rw [executeCycle_of_running hr] at h
    rcases hd : decode (fetch16 s.mem s.pc) with i | _
    · rw [runOpcode_of_instr hd] at h
      exact .inr (.inr (.inr (.inl ⟨i, rfl, rfl, h⟩)))
    · rw [runOpcode_of_unmatched hd] at h
      exact .inr (.inr (.inr (.inr ⟨rfl, rfl, by cases h; rfl⟩)))
  · obtain ⟨x, hx⟩ := Option.isSome_iff_exists.1 ((runState_waiting_iff s).1 hr).2
    rcases hp : s.pendingKey with _ | k
    · rw [executeCycle_of_waiting hr hp] at h
      exact .inr (.inr (.inl ⟨rfl, rfl, by cases h; rfl⟩))
    · rw [executeCycle_of_pending hr hx hp] at h
      exact .inr (.inl ⟨x, k, rfl, hx, rfl, by cases h; rfl⟩)
  · have hf := (runState_faulted_iff s).1 hr
    rw [executeCycle_of_faulted hf] at h
    exact .inl ⟨hf, by cases h; rfl⟩

/-- A step of a machine with an empty schedule is a cycle. -/
theorem step_of_idle {s : State} (h : s.schedule = []) : step s = executeCycle s := by
  cases s
  subst h
  rfl

/-- A step of a machine with a scheduled transaction runs it. -/
theorem step_of_scheduled {s : State} {q : Transaction} {rest : List Transaction} (h : s.schedule = q :: rest) :
    step s = transact q { s with schedule := rest } := by
  simp [step, runNext, State.nextTransaction, State.popSchedule, h]

end Sys2Proof.Machine
end

