-- ==== Sys2Proof/Laws/Memory.lean ====
section
/-! SUPPORT. Memory: reading after writing, that every operation keeps the canonical form, and that canonical memories
which read alike are equal. -/

namespace Sys2Proof.Machine.Memory

/-- What the canonical form says of a non-empty list. -/
theorem wfFrom_cons {lo c : Nat} {b : Byte} {m : Memory} :
    wfFrom lo ((c, b) :: m) = true ↔ lo ≤ c ∧ c < memorySize ∧ b ≠ initial c ∧ wfFrom (c + 1) m = true := by
  simp [wfFrom, and_assoc]

theorem wfFrom_mono {m : Memory} {lo lo' : Nat} (h : wfFrom lo m = true) (hl : lo' ≤ lo) : wfFrom lo' m = true := by
  cases m with
  | nil => rfl
  | cons e m =>
    obtain ⟨c, b⟩ := e
    rw [wfFrom_cons] at h ⊢
    exact ⟨by omega, h.2⟩

/-- Below the lowest listed address memory reads as at reset. -/
theorem read_below {m : Memory} {lo a : Nat} (h : wfFrom lo m = true) (ha : a < lo) : read m a = initial a := by
  cases m with
  | nil => rfl
  | cons e m =>
    obtain ⟨c, b⟩ := e
    rw [wfFrom_cons] at h
    have h1 : ¬ c < a := by omega
    have h2 : c ≠ a := by omega
    simp [read, h1, h2]

theorem wfFrom_consCell {m : Memory} {a lo : Nat} (b : Byte) (h : wfFrom (a + 1) m = true) (hl : lo ≤ a)
    (ha : a < memorySize) : wfFrom lo (consCell a b m) = true := by
  unfold consCell
  split
  · exact wfFrom_mono h (by omega)
  · exact wfFrom_cons.2 ⟨hl, ha, by assumption, h⟩

theorem read_consCell {m : Memory} {a : Nat} (b : Byte) (k : Nat) (h : wfFrom (a + 1) m = true) :
    read (consCell a b m) k = if k = a then b else read m k := by
  unfold consCell
  split
  · rename_i hb
    split
    · rename_i hk
      subst hk
      rw [read_below h (by omega), hb]
    · rfl
  · by_cases hk : k = a
    · simp [read, hk]
    · by_cases hlt : a < k
      · simp [read, hk, hlt]
      · have : ¬ a = k := fun e => hk e.symm
        simp [read, hk, hlt, this, read_below h (show k < a + 1 by omega)]

theorem wfFrom_write {m : Memory} {lo a : Nat} (b : Byte) (h : wfFrom lo m = true) (hl : lo ≤ a)
    (ha : a < memorySize) : wfFrom lo (write m a b) = true := by
  induction m generalizing lo with
  | nil => exact wfFrom_consCell b rfl hl ha
  | cons e m ih =>
    obtain ⟨c, d⟩ := e
    rw [wfFrom_cons] at h
    obtain ⟨hlo, hc, hd, hm⟩ := h
    unfold write
    split
    · exact wfFrom_cons.2 ⟨hlo, hc, hd, ih hm (by omega)⟩
    · split
      · rename_i hca
        subst hca
        exact wfFrom_consCell b hm hl ha
      · exact wfFrom_consCell b (wfFrom_cons.2 ⟨by omega, hc, hd, hm⟩) hl ha

theorem read_write_from {m : Memory} {lo : Nat} (a k : Nat) (b : Byte) (h : wfFrom lo m = true) :
    read (write m a b) k = if k = a then b else read m k := by
  induction m generalizing lo with
  | nil => exact read_consCell b k rfl
  | cons e m ih =>
    obtain ⟨c, d⟩ := e
    rw [wfFrom_cons] at h
    obtain ⟨hlo, hc, hd, hm⟩ := h
    unfold write
    split
    · rename_i hca
      by_cases hk : c < k
      · simp [read, hk, ih hm]
      · have : k ≠ a := by omega
        simp [read, hk, this]
    · split
      · rename_i hca
        subst hca
        rw [read_consCell b k hm]
        by_cases hk : k = c
        · simp [hk]
        · by_cases hlt : c < k
          · simp [read, hk, hlt]
          · have : ¬ c = k := fun e => hk e.symm
            simp [read, hk, hlt, this, read_below hm (show k < c + 1 by omega)]
      · exact read_consCell b k (wfFrom_cons.2 ⟨by omega, hc, hd, hm⟩)

/-- A write keeps the canonical form. -/
theorem wf_write {m : Memory} {a : Nat} (b : Byte) (h : m.wf = true) (ha : a < memorySize) :
    (m.write a b).wf = true :=
  wfFrom_write b h (by omega) ha

/-- Read after write: the written byte at its own address, the old one at every other. -/
theorem read_write {m : Memory} (a k : Nat) (b : Byte) (h : m.wf = true) :
    (m.write a b).read k = if k = a then b else m.read k :=
  read_write_from a k b h

theorem read_above {m : Memory} {lo a : Nat} (h : wfFrom lo m = true) (ha : memorySize ≤ a) : read m a = initial a := by
  induction m generalizing lo with
  | nil => rfl
  | cons e m ih =>
    obtain ⟨c, b⟩ := e
    rw [wfFrom_cons] at h
    have hlt : c < a := by omega
    simp [read, hlt, ih h.2.2.2]

theorem ext_from {m m' : Memory} {lo : Nat} (h : wfFrom lo m = true) (h' : wfFrom lo m' = true)
    (hr : ∀ a, read m a = read m' a) : m = m' := by
  induction m generalizing lo m' with
  | nil =>
    cases m' with
    | nil => rfl
    | cons e m' =>
      obtain ⟨c, b⟩ := e
      rw [wfFrom_cons] at h'
      have := hr c
      simp [read] at this
      exact absurd this.symm h'.2.2.1
  | cons e m ih =>
    obtain ⟨c, b⟩ := e
    rw [wfFrom_cons] at h
    cases m' with
    | nil =>
      have := hr c
      simp [read] at this
      exact absurd this h.2.2.1
    | cons e' m' =>
      obtain ⟨c', b'⟩ := e'
      rw [wfFrom_cons] at h'
      have hc := hr c
      have hc' := hr c'
      have heq : c = c' := by
        rcases Nat.lt_trichotomy c c' with hlt | heq | hlt
        · have h1 : ¬ c' < c := by omega
          have h2 : ¬ c' = c := by omega
          simp [read, h1, h2] at hc
          exact absurd hc h.2.2.1
        · exact heq
        · have h1 : ¬ c < c' := by omega
          have h2 : ¬ c = c' := by omega
          simp [read, h1, h2] at hc'
          exact absurd hc'.symm h'.2.2.1
      subst heq
      simp [read] at hc
      subst hc
      have htail : ∀ a, read m a = read m' a := by
        intro a
        by_cases ha : c < a
        · have := hr a
          simpa [read, ha] using this
        · rw [read_below h.2.2.2 (by omega), read_below h'.2.2.2 (by omega)]
      rw [ih h.2.2.2 h'.2.2.2 htail]

/-- Canonical memories that read alike at every address that exists are equal data. -/
theorem ext_of_read {m m' : Memory} (h : m.wf = true) (h' : m'.wf = true)
    (hr : ∀ a, a < memorySize → m.read a = m'.read a) : m = m' :=
  ext_from h h' fun a => by
    by_cases ha : a < memorySize
    · exact hr a ha
    · rw [read_above h (by omega), read_above h' (by omega)]

/-- The effective address exists. -/
theorem effectiveAddress_lt (i : Word) (k : Nat) : effectiveAddress i k < memorySize :=
  Nat.mod_lt _ (by decide)

/-- Distinct offsets below 4096 have distinct effective addresses. -/
theorem effectiveAddress_inj {i : Word} {j k : Nat} (hj : j < 4096) (hk : k < 4096)
    (h : effectiveAddress i j = effectiveAddress i k) : j = k := by
  unfold effectiveAddress at h
  omega

/-- Writing a list of bytes keeps the canonical form where the addresses exist. -/
theorem wf_writeBytes {bs : List Byte} {m : Memory} {a : Nat} (h : m.wf = true) (ha : a + bs.length ≤ memorySize) :
    (m.writeBytes a bs).wf = true := by
  induction bs generalizing m a with
  | nil => exact h
  | cons b bs ih =>
    simp only [List.length_cons] at ha
    exact ih (wf_write b h (by omega)) (by omega)

/-- Reading after writing a list of bytes. -/
theorem read_writeBytes {bs : List Byte} {m : Memory} {a : Nat} (h : m.wf = true) (ha : a + bs.length ≤ memorySize)
    (k : Nat) : (m.writeBytes a bs).read k = if a ≤ k ∧ k < a + bs.length then bs.getD (k - a) 0 else m.read k := by
  induction bs generalizing m a with
  | nil =>
    have : ¬ (a ≤ k ∧ k < a + ([] : List Byte).length) := by simp
    rw [if_neg this]
    rfl
  | cons b bs ih =>
    simp only [List.length_cons] at ha ⊢
    have := ih (wf_write b h (show a < memorySize by omega)) (show a + 1 + bs.length ≤ memorySize by omega)
    show (writeBytes (m.write a b) (a + 1) bs).read k = _
    rw [this, read_write a k b h]
    by_cases h1 : a + 1 ≤ k ∧ k < a + 1 + bs.length
    · have h2 : a ≤ k ∧ k < a + (bs.length + 1) := by omega
      obtain ⟨j, hj⟩ : ∃ j, k - a = j + 1 := ⟨k - a - 1, by omega⟩
      have hj' : k - (a + 1) = j := by omega
      rw [if_pos h1, if_pos h2, hj, hj']
      rfl
    · by_cases hka : k = a
      · subst hka
        rw [if_neg h1, if_pos rfl, if_pos (by omega), Nat.sub_self]
        rfl
      · rw [if_neg h1, if_neg hka, if_neg (by omega)]

/-- Placing a word keeps the canonical form. -/
theorem wf_storeWord {m : Memory} (a op : Word) (h : m.wf = true) : (storeWord m a op).wf = true :=
  wf_write _ (wf_write _ h (Nat.mod_lt _ (by decide))) (Nat.mod_lt _ (by decide))

end Sys2Proof.Machine.Memory
end

