-- ==== Sys2Proof/Laws/Operations.lean ====
section
/-! SUPPORT. What each shared operation does, said once: the register blocks, the blitter, the flagged results. -/

namespace Sys2Proof.Machine

/-! ### Register blocks (44_index_memory.md R208, R210) -/

/-- The block `V[0]` to `V[x]` holds the registers up to x. -/
theorem mem_blockRegs : ∀ x k : Reg, k ∈ blockRegs x ↔ k ≤ x := by decide

/-- It names no register twice. -/
theorem nodup_blockRegs : ∀ x : Reg, (blockRegs x).Nodup := by decide

/-- Storing a list of registers writes memory alone. -/
theorem storeRegs_eq (ks : List Reg) (s : State) :
    ks.foldl (fun s k => s.writeEA k.val (s.readReg k)) s =
      { s with mem := ks.foldl (fun m k => m.write (effectiveAddress s.i k.val) (s.readReg k)) s.mem } := by
  induction ks generalizing s with
  | nil => rfl
  | cons k ks ih => exact ih (s.writeEA k.val (s.readReg k))

theorem storeBlock_eq (s : State) (x : Reg) : s.storeBlock x = { s with mem := (s.storeBlock x).mem } := by
  unfold State.storeBlock
  rw [storeRegs_eq]

/-- Memory after a fold of writes at effective addresses: canonical, and each byte is the one stored there. -/
theorem storeRegs_mem (ks : List Reg) (i : Word) (f : Reg → Byte) (m : Memory) (h : m.wf = true) (hn : ks.Nodup) :
    (ks.foldl (fun m k => m.write (effectiveAddress i k.val) (f k)) m).wf = true ∧
    (∀ k ∈ ks, (ks.foldl (fun m k => m.write (effectiveAddress i k.val) (f k)) m).read (effectiveAddress i k.val) = f k) ∧
    (∀ a, (∀ k ∈ ks, effectiveAddress i k.val ≠ a) →
      (ks.foldl (fun m k => m.write (effectiveAddress i k.val) (f k)) m).read a = m.read a) := by
  induction ks generalizing m with
  | nil => exact ⟨h, by simp, fun _ _ => rfl⟩
  | cons k ks ih =>
    rw [List.nodup_cons] at hn
    obtain ⟨h1, h2, h3⟩ := ih (m.write (effectiveAddress i k.val) (f k))
      (Memory.wf_write _ h (Memory.effectiveAddress_lt i k.val)) hn.2
    refine ⟨h1, ?_, ?_⟩
    · intro j hj
      rcases List.mem_cons.1 hj with rfl | hj
      · have hne : ∀ l ∈ ks, effectiveAddress i l.val ≠ effectiveAddress i j.val := by
          intro l hl he
          have := Memory.effectiveAddress_inj (show l.val < 4096 by omega) (show j.val < 4096 by omega) he
          exact hn.1 (Fin.ext this ▸ hl)
        have := h3 _ hne
        simp only [List.foldl_cons]
        rw [this, Memory.read_write _ _ _ h, if_pos rfl]
      · exact h2 j hj
    · intro a ha
      have h4 := h3 a (fun l hl => ha l (List.mem_cons_of_mem _ hl))
      simp only [List.foldl_cons]
      rw [h4, Memory.read_write _ _ _ h, if_neg (fun e => ha k List.mem_cons_self e.symm)]

/-- LD [I], Vx stores V[k] at EA(k) for k = 0 .. x and no other byte. -/
theorem storeBlock_mem (s : State) (x : Reg) (h : s.mem.wf = true) :
    (s.storeBlock x).mem.wf = true ∧
    (∀ k ≤ x, (s.storeBlock x).mem.read (effectiveAddress s.i k.val) = s.readReg k) ∧
    (∀ a, (∀ k ≤ x, effectiveAddress s.i k.val ≠ a) → (s.storeBlock x).mem.read a = s.mem.read a) := by
  have := storeRegs_mem (blockRegs x) s.i s.readReg s.mem h (nodup_blockRegs x)
  simp only [mem_blockRegs] at this
  unfold State.storeBlock
  rw [storeRegs_eq]
  exact this

/-- Loading a list of registers writes registers alone: each of the list receives its byte of memory. -/
theorem loadRegs_spec (ks : List Reg) (s : State) :
    let t := ks.foldl (fun s k => s.writeReg k (s.readEA k.val)) s
    t = { s with v := t.v } ∧ ∀ r, t.readReg r = if r ∈ ks then s.readEA r.val else s.readReg r := by
  induction ks generalizing s with
  | nil => exact ⟨rfl, by simp⟩
  | cons k ks ih =>
    have := ih (s.writeReg k (s.readEA k.val))
    refine ⟨this.1, fun r => ?_⟩
    rw [show List.foldl (fun s k => s.writeReg k (s.readEA k.val)) s (k :: ks) =
      List.foldl (fun s k => s.writeReg k (s.readEA k.val)) (s.writeReg k (s.readEA k.val)) ks from rfl, this.2 r]
    have hEA : (s.writeReg k (s.readEA k.val)).readEA r.val = s.readEA r.val := rfl
    rw [hEA, State.readReg_writeReg]
    by_cases h1 : r ∈ ks
    · simp [h1]
    · by_cases h2 : r = k
      · subst h2
        simp [h1]
      · simp [h1, h2]

/-- LD Vx, [I] loads V[k] from EA(k) for k = 0 .. x and changes nothing else. -/
theorem loadBlock_spec (s : State) (x : Reg) :
    s.loadBlock x = { s with v := (s.loadBlock x).v } ∧
    ∀ r, (s.loadBlock x).readReg r = if r ≤ x then s.readEA r.val else s.readReg r := by
  have := loadRegs_spec (blockRegs x) s
  simp only [mem_blockRegs] at this
  exact this

/-! ### The blitter (46_display.md R252, R254) -/

/-- Flipping a pixel changes that pixel alone. -/
theorem pixel_flip (fb : Framebuffer) (x cx : Fin 64) (y cy : Fin 32) :
    (Framebuffer.flip fb x y).pixel cx cy = (Framebuffer.pixel fb cx cy ^^ (decide (cx = x) && decide (cy = y))) := by
  unfold Framebuffer.flip Framebuffer.pixel
  simp only [Fin.getElem_fin, Vector.getElem_set]
  by_cases hy : cy = y
  · subst hy
    by_cases hx : cx = x
    · subst hx
      simp
    · have : ¬ x.val = cx.val := fun e => hx (Fin.ext e.symm)
      simp [hx, this]
  · have : ¬ y.val = cy.val := fun e => hy (Fin.ext e.symm)
    simp [hy, this]

theorem wrapColumn_inj {px : Byte} {j k : Nat} (hj : j < 64) (hk : k < 64) :
    wrapColumn px j = wrapColumn px k ↔ j = k := by
  simp only [wrapColumn, Fin.mk.injEq]
  omega

theorem wrapRow_inj {py : Byte} {j k : Nat} (hj : j < 32) (hk : k < 32) :
    wrapRow py j = wrapRow py k ↔ j = k := by
  simp only [wrapRow, Fin.mk.injEq]
  omega

/-- Framebuffers that agree on every pixel are equal. -/
theorem Framebuffer.ext_of_pixel {f g : Framebuffer}
    (h : ∀ x y, Framebuffer.pixel f x y = Framebuffer.pixel g x y) : f = g := by
  apply Vector.ext
  intro y hy
  apply Vector.ext
  intro x hx
  exact h ⟨x, hx⟩ ⟨y, hy⟩

/-- Blitting some bits of one row: each 1 bit flips its own pixel, and the collision is the OR of the pixels met. -/
theorem blitBits_spec (px : Byte) (cy : Fin 32) (row : Byte) (js : List Nat) (acc : Blit) (hn : js.Nodup)
    (hlt : ∀ j ∈ js, j < 64) :
    let out := js.foldl (fun acc j => if row.getLsbD (7 - j) then blitBit (wrapColumn px j) cy acc else acc) acc
    (∀ x y, Framebuffer.pixel out.1 x y = (Framebuffer.pixel acc.1 x y ^^
      (decide (y = cy) && decide (∃ j ∈ js, row.getLsbD (7 - j) = true ∧ x = wrapColumn px j)))) ∧
    (out.2 = true ↔ acc.2 = true ∨
      ∃ j ∈ js, row.getLsbD (7 - j) = true ∧ Framebuffer.pixel acc.1 (wrapColumn px j) cy = true) := by
  induction js generalizing acc with
  | nil => simp
  | cons j js ih =>
    rw [List.nodup_cons] at hn
    have hlt' : ∀ k ∈ js, k < 64 := fun k hk => hlt k (List.mem_cons_of_mem _ hk)
    have hj : j < 64 := hlt j List.mem_cons_self
    by_cases hb : row.getLsbD (7 - j) = true
    · obtain ⟨h1, h2⟩ := ih (blitBit (wrapColumn px j) cy acc) hn.2 hlt'
      simp only [List.foldl_cons, hb, if_true]
      refine ⟨fun x y => ?_, ?_⟩
      · rw [h1 x y]
        show ((Framebuffer.flip acc.1 (wrapColumn px j) cy).pixel x y ^^ _) = _
        rw [pixel_flip]
        by_cases hy : y = cy
        · by_cases hx : x = wrapColumn px j
          · have : ¬ ∃ k ∈ js, row.getLsbD (7 - k) = true ∧ x = wrapColumn px k := by
              rintro ⟨k, hk, -, hxk⟩
              rw [hx] at hxk
              rw [wrapColumn_inj hj (hlt' k hk)] at hxk
              exact hn.1 (hxk ▸ hk)
            have h' : ∃ k ∈ j :: js, row.getLsbD (7 - k) = true ∧ x = wrapColumn px k :=
              ⟨j, List.mem_cons_self, hb, hx⟩
            rw [decide_eq_false this, decide_eq_true h']
            simp [hx, hy]
          · have : (∃ k ∈ j :: js, row.getLsbD (7 - k) = true ∧ x = wrapColumn px k) ↔
                ∃ k ∈ js, row.getLsbD (7 - k) = true ∧ x = wrapColumn px k := by
              constructor
              · rintro ⟨k, hk, h3, h4⟩
                rcases List.mem_cons.1 hk with rfl | hk
                · exact absurd h4 hx
                · exact ⟨k, hk, h3, h4⟩
              · rintro ⟨k, hk, h⟩
                exact ⟨k, List.mem_cons_of_mem _ hk, h⟩
            simp only [this]
            simp [hx]
        · simp [hy]
      · rw [h2]
        show (acc.2 || Framebuffer.pixel acc.1 (wrapColumn px j) cy) = true ∨ _ ↔ _
        have key : ∀ k ∈ js, Framebuffer.pixel (blitBit (wrapColumn px j) cy acc).1 (wrapColumn px k) cy =
            Framebuffer.pixel acc.1 (wrapColumn px k) cy := by
          intro k hk
          show (Framebuffer.flip acc.1 (wrapColumn px j) cy).pixel _ _ = _
          rw [pixel_flip]
          have : wrapColumn px k ≠ wrapColumn px j := by
            rw [Ne, wrapColumn_inj (hlt' k hk) hj]
            exact fun e => hn.1 (e ▸ hk)
          simp [this]
        rw [Bool.or_eq_true]
        constructor
        · rintro ((h | h) | ⟨k, hk, h3, h4⟩)
          · exact .inl h
          · exact .inr ⟨j, List.mem_cons_self, hb, h⟩
          · exact .inr ⟨k, List.mem_cons_of_mem _ hk, h3, by rw [← key k hk]; exact h4⟩
        · rintro (h | ⟨k, hk, h3, h4⟩)
          · exact .inl (.inl h)
          · rcases List.mem_cons.1 hk with rfl | hk
            · exact .inl (.inr h4)
            · exact .inr ⟨k, hk, h3, by rw [key k hk]; exact h4⟩
    · obtain ⟨h1, h2⟩ := ih acc hn.2 hlt'
      have hex : ∀ q : Nat → Prop, (∃ k ∈ j :: js, row.getLsbD (7 - k) = true ∧ q k) ↔
          ∃ k ∈ js, row.getLsbD (7 - k) = true ∧ q k := by
        intro q
        constructor
        · rintro ⟨k, hk, h3, h4⟩
          rcases List.mem_cons.1 hk with rfl | hk
          · exact absurd h3 hb
          · exact ⟨k, hk, h3, h4⟩
        · rintro ⟨k, hk, h⟩
          exact ⟨k, List.mem_cons_of_mem _ hk, h⟩
      simp only [List.foldl_cons, hb, if_false, Bool.false_eq_true]
      refine ⟨fun x y => ?_, ?_⟩
      · rw [h1 x y]
        simp only [hex fun k => x = wrapColumn px k]
      · rw [h2, hex fun k => Framebuffer.pixel acc.1 (wrapColumn px k) cy = true]

/-- The sprite bit that falls on column x of a row drawn from column px, if it is a 1. -/
theorem blitRow_spec (px py : Byte) (i : Nat) (row : Byte) (acc : Blit) :
    (∀ x y, Framebuffer.pixel (blitRow px py i row acc).1 x y = (Framebuffer.pixel acc.1 x y ^^
      (decide (y = wrapRow py i) && decide (∃ j ∈ List.range 8, row.getLsbD (7 - j) = true ∧ x = wrapColumn px j)))) ∧
    ((blitRow px py i row acc).2 = true ↔ acc.2 = true ∨
      ∃ j ∈ List.range 8, row.getLsbD (7 - j) = true ∧ Framebuffer.pixel acc.1 (wrapColumn px j) (wrapRow py i) = true) := by
  have := blitBits_spec px (wrapRow py i) row (List.range 8) acc List.nodup_range
    (fun j hj => by have := List.mem_range.1 hj; omega)
  exact this

/-- The blitter: every 1 bit of the sprite flips its own pixel, no other pixel changes, and the collision is the OR
of the pixels the 1 bits fell on, as they were before the draw (R252, R254). -/
theorem blit_spec (px py : Byte) (rows : List Byte) (i : Nat) (acc : Blit) (hi : i + rows.length ≤ 32) :
    (∀ x y, Framebuffer.pixel (blit px py rows i acc).1 x y = (Framebuffer.pixel acc.1 x y ^^
      decide (∃ k ∈ List.range rows.length, ∃ j ∈ List.range 8, (rows.getD k 0).getLsbD (7 - j) = true ∧
        x = wrapColumn px j ∧ y = wrapRow py (i + k)))) ∧
    ((blit px py rows i acc).2 = true ↔ acc.2 = true ∨
      ∃ k ∈ List.range rows.length, ∃ j ∈ List.range 8, (rows.getD k 0).getLsbD (7 - j) = true ∧
        Framebuffer.pixel acc.1 (wrapColumn px j) (wrapRow py (i + k)) = true) := by
  induction rows generalizing i acc with
  | nil => simp [blit]
  | cons row rows ih =>
    simp only [List.length_cons] at hi
    obtain ⟨h1, h2⟩ := ih (i + 1) (blitRow px py i row acc) (by omega)
    obtain ⟨r1, r2⟩ := blitRow_spec px py i row acc
    have hex : ∀ q : Nat → Nat → Prop,
        (∃ k ∈ List.range (row :: rows).length, ∃ j ∈ List.range 8, ((row :: rows).getD k 0).getLsbD (7 - j) = true ∧ q j (i + k)) ↔
        (∃ j ∈ List.range 8, row.getLsbD (7 - j) = true ∧ q j i) ∨
        ∃ k ∈ List.range rows.length, ∃ j ∈ List.range 8, (rows.getD k 0).getLsbD (7 - j) = true ∧ q j (i + 1 + k) := by
      intro q
      constructor
      · rintro ⟨k, hk, j, hj, h3, h4⟩
        cases k with
        | zero => exact .inl ⟨j, hj, by simpa using h3, h4⟩
        | succ k =>
          refine .inr ⟨k, by simpa using hk, j, hj, by simpa using h3, ?_⟩
          rwa [show i + 1 + k = i + (k + 1) by omega]
      · rintro (⟨j, hj, h3, h4⟩ | ⟨k, hk, j, hj, h3, h4⟩)
        · exact ⟨0, by simp, j, hj, by simpa using h3, h4⟩
        · refine ⟨k + 1, by simpa using hk, j, hj, h3, ?_⟩
          rwa [show i + (k + 1) = i + 1 + k by omega]
    refine ⟨fun x y => ?_, ?_⟩
    · show Framebuffer.pixel (blit px py rows (i + 1) (blitRow px py i row acc)).1 x y = _
      rw [h1 x y, r1 x y]
      simp only [hex fun j r => x = wrapColumn px j ∧ y = wrapRow py r]
      by_cases hy : y = wrapRow py i
      · have hno : ¬ ∃ k ∈ List.range rows.length, ∃ j ∈ List.range 8, (rows.getD k 0).getLsbD (7 - j) = true ∧
            x = wrapColumn px j ∧ y = wrapRow py (i + 1 + k) := by
          rintro ⟨k, hk, j, -, -, -, hyk⟩
          have := List.mem_range.1 hk
          rw [hy, wrapRow_inj (by omega) (by omega)] at hyk
          omega
        subst hy
        simp only [hno, decide_false, Bool.xor_false, or_false, and_true, decide_true, Bool.true_and]
      · simp only [hy, and_false, decide_false, Bool.false_and, Bool.xor_false, exists_false, false_or]
    · show (blit px py rows (i + 1) (blitRow px py i row acc)).2 = true ↔ _
      rw [h2, r2, hex fun j r => Framebuffer.pixel acc.1 (wrapColumn px j) (wrapRow py r) = true, or_assoc]
      have key : ∀ k ∈ List.range rows.length, ∀ j, Framebuffer.pixel (blitRow px py i row acc).1 (wrapColumn px j)
          (wrapRow py (i + 1 + k)) = Framebuffer.pixel acc.1 (wrapColumn px j) (wrapRow py (i + 1 + k)) := by
        intro k hk j
        rw [r1]
        have : wrapRow py (i + 1 + k) ≠ wrapRow py i := by
          have := List.mem_range.1 hk
          rw [Ne, wrapRow_inj (by omega) (by omega)]
          omega
        simp [this]
      have : (∃ k ∈ List.range rows.length, ∃ j ∈ List.range 8, (rows.getD k 0).getLsbD (7 - j) = true ∧
          Framebuffer.pixel (blitRow px py i row acc).1 (wrapColumn px j) (wrapRow py (i + 1 + k)) = true) ↔
          ∃ k ∈ List.range rows.length, ∃ j ∈ List.range 8, (rows.getD k 0).getLsbD (7 - j) = true ∧
          Framebuffer.pixel acc.1 (wrapColumn px j) (wrapRow py (i + 1 + k)) = true := by
        constructor <;> rintro ⟨k, hk, j, hj, h3, h4⟩
        · exact ⟨k, hk, j, hj, h3, by rw [← key k hk j]; exact h4⟩
        · exact ⟨k, hk, j, hj, h3, by rw [key k hk j]; exact h4⟩
      rw [this]

/-- The rows of a sprite are the bytes at EA(0), EA(1), … -/
theorem spriteRows_length (s : State) (n : Nat) : (s.spriteRows n).length = n := by
  simp [State.spriteRows]

theorem spriteRows_getD (s : State) {n k : Nat} (hk : k < n) : (s.spriteRows n).getD k 0 = s.readEA k := by
  simp [State.spriteRows, List.getD, hk]

/-! ### Flagged results (43_alu.md R188) -/

/-- A flagged instruction writes registers alone, under every reading. -/
theorem flagAndResult_eq (s : State) (o : Config.VfOrder) (f : Byte → Byte → Bool) (g : Byte → Byte → Byte) (x y : Reg) :
    s.flagAndResult o f g x y = { s with v := (s.flagAndResult o f g x y).v } := by
  cases o <;> rfl

theorem boundResultAndFlag_eq (s : State) (o : Config.VfOrder) (f : Byte → Byte → Bool) (g : Byte → Byte → Byte)
    (x y : Reg) : s.boundResultAndFlag o f g x y = { s with v := (s.boundResultAndFlag o f g x y).v } := by
  cases o <;> rfl

end Sys2Proof.Machine
end

