-- ==== Sys2Proof/Laws/PerInstr.lean ====
section
/-! SUPPORT. One statement for every instruction: its word has the fixed bits of its row of spec/opcode_table.json, whatever
its operands are. -/

namespace Sys2Proof.Laws.FixedBits

/-- The mask and the match of the instruction's row of spec/opcode_table.json (30_encoding.md R75). -/
def tableRow : Instr → Word × Word
  | .cls => (0xFFFF, 0x00E0)
  | .ret => (0xFFFF, 0x00EE)
  | .sys _ => (0xF000, 0x0000)
  | .jp _ => (0xF000, 0x1000)
  | .call _ => (0xF000, 0x2000)
  | .seImm _ _ => (0xF000, 0x3000)
  | .sneImm _ _ => (0xF000, 0x4000)
  | .seReg _ _ => (0xF00F, 0x5000)
  | .ldImm _ _ => (0xF000, 0x6000)
  | .addImm _ _ => (0xF000, 0x7000)
  | .ldReg _ _ => (0xF00F, 0x8000)
  | .orReg _ _ => (0xF00F, 0x8001)
  | .andReg _ _ => (0xF00F, 0x8002)
  | .xorReg _ _ => (0xF00F, 0x8003)
  | .addReg _ _ => (0xF00F, 0x8004)
  | .sub _ _ => (0xF00F, 0x8005)
  | .shr _ _ => (0xF00F, 0x8006)
  | .subn _ _ => (0xF00F, 0x8007)
  | .shl _ _ => (0xF00F, 0x800E)
  | .sneReg _ _ => (0xF00F, 0x9000)
  | .ldI _ => (0xF000, 0xA000)
  | .jpV0 _ => (0xF000, 0xB000)
  | .rnd _ _ => (0xF000, 0xC000)
  | .drw _ _ _ => (0xF000, 0xD000)
  | .skp _ => (0xF0FF, 0xE09E)
  | .sknp _ => (0xF0FF, 0xE0A1)
  | .ldVxDt _ => (0xF0FF, 0xF007)
  | .ldVxK _ => (0xF0FF, 0xF00A)
  | .ldDtVx _ => (0xF0FF, 0xF015)
  | .addI _ => (0xF0FF, 0xF01E)
  | .ldF _ => (0xF0FF, 0xF029)
  | .ldB _ => (0xF0FF, 0xF033)
  | .ldIVx _ => (0xF0FF, 0xF055)
  | .ldVxI _ => (0xF0FF, 0xF065)

/-- The word of the instruction agrees with its row's match on the bits of its row's mask. -/
def Statement (i : Instr) : Prop := encode i &&& (tableRow i).1 = (tableRow i).2

/-- The class nibble alone. -/
theorem and_class (w : Word) : w &&& 0xF000#16 = (opClass w).setWidth 16 <<< 12 := by
  apply BitVec.eq_of_getElem_eq
  intro i hi
  interval_cases i <;> simp [opClass]

/-- The class nibble and the low nibble. -/
theorem and_class_n (w : Word) : w &&& 0xF00F#16 = (opClass w).setWidth 16 <<< 12 ||| (fieldN w).setWidth 16 := by
  apply BitVec.eq_of_getElem_eq
  intro i hi
  interval_cases i <;> simp [opClass, fieldN]

/-- The class nibble and the low byte. -/
theorem and_class_kk (w : Word) : w &&& 0xF0FF#16 = (opClass w).setWidth 16 <<< 12 ||| (fieldKK w).setWidth 16 := by
  apply BitVec.eq_of_getElem_eq
  intro i hi
  interval_cases i <;> simp [opClass, fieldKK]

theorem cls : Statement (.cls) :=
  rfl
theorem ret : Statement (.ret) :=
  rfl
theorem sys (nnn : Addr) : Statement (.sys nnn) :=
  (and_class _).trans (by simp [tableRow, encode])
theorem jp (nnn : Addr) : Statement (.jp nnn) :=
  (and_class _).trans (by simp [tableRow, encode])
theorem call (nnn : Addr) : Statement (.call nnn) :=
  (and_class _).trans (by simp [tableRow, encode])
theorem seImm (x : Reg) (kk : Byte) : Statement (.seImm x kk) :=
  (and_class _).trans (by simp [tableRow, encode])
theorem sneImm (x : Reg) (kk : Byte) : Statement (.sneImm x kk) :=
  (and_class _).trans (by simp [tableRow, encode])
theorem seReg (x y : Reg) : Statement (.seReg x y) :=
  (and_class_n _).trans (by simp [tableRow, encode])
theorem ldImm (x : Reg) (kk : Byte) : Statement (.ldImm x kk) :=
  (and_class _).trans (by simp [tableRow, encode])
theorem addImm (x : Reg) (kk : Byte) : Statement (.addImm x kk) :=
  (and_class _).trans (by simp [tableRow, encode])
theorem ldReg (x y : Reg) : Statement (.ldReg x y) :=
  (and_class_n _).trans (by simp [tableRow, encode])
theorem orReg (x y : Reg) : Statement (.orReg x y) :=
  (and_class_n _).trans (by simp [tableRow, encode])
theorem andReg (x y : Reg) : Statement (.andReg x y) :=
  (and_class_n _).trans (by simp [tableRow, encode])
theorem xorReg (x y : Reg) : Statement (.xorReg x y) :=
  (and_class_n _).trans (by simp [tableRow, encode])
theorem addReg (x y : Reg) : Statement (.addReg x y) :=
  (and_class_n _).trans (by simp [tableRow, encode])
theorem sub (x y : Reg) : Statement (.sub x y) :=
  (and_class_n _).trans (by simp [tableRow, encode])
theorem shr (x y : Reg) : Statement (.shr x y) :=
  (and_class_n _).trans (by simp [tableRow, encode])
theorem subn (x y : Reg) : Statement (.subn x y) :=
  (and_class_n _).trans (by simp [tableRow, encode])
theorem shl (x y : Reg) : Statement (.shl x y) :=
  (and_class_n _).trans (by simp [tableRow, encode])
theorem sneReg (x y : Reg) : Statement (.sneReg x y) :=
  (and_class_n _).trans (by simp [tableRow, encode])
theorem ldI (nnn : Addr) : Statement (.ldI nnn) :=
  (and_class _).trans (by simp [tableRow, encode])
theorem jpV0 (nnn : Addr) : Statement (.jpV0 nnn) :=
  (and_class _).trans (by simp [tableRow, encode])
theorem rnd (x : Reg) (kk : Byte) : Statement (.rnd x kk) :=
  (and_class _).trans (by simp [tableRow, encode])
theorem drw (x y : Reg) (n : Nibble) : Statement (.drw x y n) :=
  (and_class _).trans (by simp [tableRow, encode])
theorem skp (x : Reg) : Statement (.skp x) :=
  (and_class_kk _).trans (by simp [tableRow, encode])
theorem sknp (x : Reg) : Statement (.sknp x) :=
  (and_class_kk _).trans (by simp [tableRow, encode])
theorem ldVxDt (x : Reg) : Statement (.ldVxDt x) :=
  (and_class_kk _).trans (by simp [tableRow, encode])
theorem ldVxK (x : Reg) : Statement (.ldVxK x) :=
  (and_class_kk _).trans (by simp [tableRow, encode])
theorem ldDtVx (x : Reg) : Statement (.ldDtVx x) :=
  (and_class_kk _).trans (by simp [tableRow, encode])
theorem addI (x : Reg) : Statement (.addI x) :=
  (and_class_kk _).trans (by simp [tableRow, encode])
theorem ldF (x : Reg) : Statement (.ldF x) :=
  (and_class_kk _).trans (by simp [tableRow, encode])
theorem ldB (x : Reg) : Statement (.ldB x) :=
  (and_class_kk _).trans (by simp [tableRow, encode])
theorem ldIVx (x : Reg) : Statement (.ldIVx x) :=
  (and_class_kk _).trans (by simp [tableRow, encode])
theorem ldVxI (x : Reg) : Statement (.ldVxI x) :=
  (and_class_kk _).trans (by simp [tableRow, encode])

end Sys2Proof.Laws.FixedBits
end

