-- ==== Sys2Proof/Machine/Assembly.lean ====
section
/-! DEFINITION. The assembler's spelling of the instructions, and the two notations of program listings (30_encoding.md R84,
R85; log 26). It decides nothing about what the machine does. -/

namespace Sys2Proof.Machine

/-- One hexadecimal digit. -/
def hexDigit (n : Nat) : Char := "0123456789ABCDEF".toList.getD n '0'

/-- The hexadecimal digits of a number, as many as asked for. -/
def hexDigits : Nat → Nat → String
  | 0, _ => ""
  | width + 1, n => (hexDigits width (n / 16)).push (hexDigit (n % 16))

/-- A number as the assembler writes it, with its prefix (R84). -/
def hexNumber (width n : Nat) : String := "0x" ++ hexDigits width n

/-- `V0` to `VF` (R84). -/
def spellReg (r : Reg) : String := "V" ++ hexDigits 1 r.val

/-- A mnemonic with one operand. -/
def spellOne (mnemonic a : String) : String := mnemonic ++ " " ++ a

/-- A mnemonic with two operands, separated by a comma (R84). -/
def spellTwo (mnemonic a b : String) : String := mnemonic ++ " " ++ a ++ ", " ++ b

/-- An address operand. -/
def spellAddr (nnn : Addr) : String := hexNumber 3 nnn.toNat

/-- An immediate operand. -/
def spellByte (kk : Byte) : String := hexNumber 2 kk.toNat

/-- The assembler's spelling of an instruction; SHR and SHL are printed without y (R84). -/
def assembly : Instr → String
  | .cls => "CLS"
  | .ret => "RET"
  | .sys nnn => spellOne "SYS" (spellAddr nnn)
  | .jp nnn => spellOne "JP" (spellAddr nnn)
  | .call nnn => spellOne "CALL" (spellAddr nnn)
  | .seImm x kk => spellTwo "SE" (spellReg x) (spellByte kk)
  | .sneImm x kk => spellTwo "SNE" (spellReg x) (spellByte kk)
  | .seReg x y => spellTwo "SE" (spellReg x) (spellReg y)
  | .ldImm x kk => spellTwo "LD" (spellReg x) (spellByte kk)
  | .addImm x kk => spellTwo "ADD" (spellReg x) (spellByte kk)
  | .ldReg x y => spellTwo "LD" (spellReg x) (spellReg y)
  | .orReg x y => spellTwo "OR" (spellReg x) (spellReg y)
  | .andReg x y => spellTwo "AND" (spellReg x) (spellReg y)
  | .xorReg x y => spellTwo "XOR" (spellReg x) (spellReg y)
  | .addReg x y => spellTwo "ADD" (spellReg x) (spellReg y)
  | .sub x y => spellTwo "SUB" (spellReg x) (spellReg y)
  | .shr x _ => spellOne "SHR" (spellReg x)
  | .subn x y => spellTwo "SUBN" (spellReg x) (spellReg y)
  | .shl x _ => spellOne "SHL" (spellReg x)
  | .sneReg x y => spellTwo "SNE" (spellReg x) (spellReg y)
  | .ldI nnn => spellTwo "LD" "I" (spellAddr nnn)
  | .jpV0 nnn => spellTwo "JP" "V0" (spellAddr nnn)
  | .rnd x kk => spellTwo "RND" (spellReg x) (spellByte kk)
  | .drw x y n => spellTwo "DRW" (spellReg x) (spellReg y) ++ ", " ++ hexNumber 1 n.toNat
  | .skp x => spellOne "SKP" (spellReg x)
  | .sknp x => spellOne "SKNP" (spellReg x)
  | .ldVxDt x => spellTwo "LD" (spellReg x) "DT"
  | .ldVxK x => spellTwo "LD" (spellReg x) "K"
  | .ldDtVx x => spellTwo "LD" "DT" (spellReg x)
  | .addI x => spellTwo "ADD" "I" (spellReg x)
  | .ldF x => spellTwo "LD" "F" (spellReg x)
  | .ldB x => spellTwo "LD" "B" (spellReg x)
  | .ldIVx x => spellTwo "LD" "[I]" (spellReg x)
  | .ldVxI x => spellTwo "LD" (spellReg x) "[I]"

/-- The instruction whose word an assembler emits for the spelling of i: y = 0 for SHR and SHL (R84). -/
def assembled : Instr → Instr
  | .shr x _ => .shr x 0
  | .shl x _ => .shl x 0
  | i => i

/-- The directive that places raw bytes (R85). -/
def byteDirective (bytes : List Byte) : String :=
  ".byte " ++ ", ".intercalate (bytes.map fun b => hexDigits 2 b.toNat)

/-- A line of a listing: address, word, and the spelling of the word, or the directive for its two bytes where it is
unmatched (R85). -/
def listingLine (a op : Word) : String :=
  hexNumber 3 a.toNat ++ ": " ++
    match decode op with
    | .instr i => hexDigits 4 op.toNat ++ "  " ++ assembly i
    | .unmatched => byteDirective (bytesOfWord op)

end Sys2Proof.Machine
end

