-- ==== Sys2Proof/Tests/Slice0.lean ====
section
/-! SUPPORT. The model's own tests. The expected results are those of 95_test_vectors.md (V<n>, S<n>, P<n> in the
comments) or are read by hand from the rule named. After them, a state and operands that meet the hypotheses of each
obligation that has any. -/

namespace Sys2Proof.Tests

open Sys2Proof.Machine

/-! ## Helpers -/

/-- The reset state with some registers set. -/
def regs (l : List (Reg × Byte)) : State := l.foldl (fun s p => s.writeReg p.1 p.2) State.reset

/-- The same, with I set. -/
def regsI (l : List (Reg × Byte)) (i : Word) : State := (regs l).writeI i

/-- Bytes stored from an address on. -/
def State.poke (s : State) (a : Nat) (bs : List Byte) : State := { s with mem := s.mem.writeBytes a bs }

/-- What is seen after one step that runs the word op. -/
def cycle {α : Type} (s : State) (op : Nat) (see : State → α) : Option α :=
  match step (s.withFetchWord 16 op) with
  | .next t => some (see t)
  | .fault r => nomatch r
  | .refused _ => none

/-- What is seen after a transaction. -/
def after {α : Type} (q : Transaction) (s : State) (see : State → α) : Option α :=
  match transact q s with
  | .next t => some (see t)
  | .fault r => nomatch r
  | .refused _ => none

/-- The first pixels of a row. -/
def rowBits (s : State) (y : Fin 32) (n : Nat) : List Bool := ((List.finRange 64).take n).map fun x => s.fb.pixel x y

/-! ## WellFormed: an ill-formed term for each check (30_encoding.md R76) -/

theorem test_wf_refuses_sys_0E0 : (Instr.sys 0x0E0).wellFormed = false := by decide

theorem test_wf_refuses_sys_0EE : (Instr.sys 0x0EE).wellFormed = false := by decide

theorem test_wf_accepts_its_neighbours :
    [Instr.sys 0x0DF, .sys 0x0E1, .sys 0x0ED, .sys 0x0EF, .jp 0x0E0, .call 0x0EE].map Instr.wellFormed =
      [true, true, true, true, true, true] := by decide

/-! ## Decoding: words written from the patterns of 30_encoding.md R75 -/

theorem test_decode_control_flow :
    [0x00E0, 0x00EE, 0x0123, 0x1FED, 0x2204, 0xB30A].map (decodeTableWord 16) =
      [some .cls, some .ret, some (.sys 0x123), some (.jp 0xFED), some (.call 0x204), some (.jpV0 0x30A)] := by decide

theorem test_decode_skips :
    [0x3342, 0x4A5B, 0x5120, 0x9F80, 0xE29E, 0xEDA1].map (decodeTableWord 16) =
      [some (.seImm 3 0x42), some (.sneImm 10 0x5B), some (.seReg 1 2), some (.sneReg 15 8), some (.skp 2),
       some (.sknp 13)] := by decide

theorem test_decode_loads_and_logic :
    [0x600A, 0x7EF1, 0x8120, 0x8451, 0x86A2, 0x8BC3].map (decodeTableWord 16) =
      [some (.ldImm 0 0x0A), some (.addImm 14 0xF1), some (.ldReg 1 2), some (.orReg 4 5), some (.andReg 6 10),
       some (.xorReg 11 12)] := by decide

theorem test_decode_flagged_arithmetic :
    [0x8014, 0x8FE5, 0x8016, 0x80F6, 0x8327, 0x8D4E, 0xC30F].map (decodeTableWord 16) =
      [some (.addReg 0 1), some (.sub 15 14), some (.shr 0 1), some (.shr 0 15), some (.subn 3 2), some (.shl 13 4),
       some (.rnd 3 0x0F)] := by decide

theorem test_decode_index_and_display :
    [0xA210, 0xF21E, 0xF929, 0xF033, 0xF155, 0xFF65, 0xD015, 0xDAB0].map (decodeTableWord 16) =
      [some (.ldI 0x210), some (.addI 2), some (.ldF 9), some (.ldB 0), some (.ldIVx 1), some (.ldVxI 15),
       some (.drw 0 1 5), some (.drw 10 11 0)] := by decide

theorem test_decode_timer_and_key :
    [0xF307, 0xF30A, 0xF415].map (decodeTableWord 16) =
      [some (.ldVxDt 3), some (.ldVxK 3), some (.ldDtVx 4)] := by decide

/-- V20 to V25: the unmatched boundaries. -/
theorem test_decode_unmatched :
    [0x5121, 0x8008, 0x8009, 0x800A, 0x800B, 0x800C, 0x800D, 0x800F, 0x9121, 0xE000, 0xE09F, 0xE0A0, 0xE0A2, 0xF018,
     0xF000, 0xF0FF, 0xFFFF, 0xF030, 0xF075, 0xF085].filterMap (decodeTableWord 16) = [] := by decide

/-- V26, V28: class 0. -/
theorem test_decode_class0 :
    [0x00E1, 0x00EF, 0x00FF, 0x0FFF, 0x0000].map (decodeTableWord 16) =
      [some (.sys 0x0E1), some (.sys 0x0EF), some (.sys 0x0FF), some (.sys 0xFFF), some (.sys 0x000)] := by decide

/-- Two bytes are consumed, and one alone is no word. -/
theorem test_decode_bytes :
    decodeBytes [0x12#8, 0x34#8, 0x60#8] = .instr (.jp 0x234) [0x60#8] ∧ decodeBytes [0x51#8, 0x21#8] = .unmatched 0x5121#16 ∧
    decodeBytes [0x12#8] = .truncated ∧ decodeBytes [] = .truncated := by decide

theorem test_encode_words :
    [encode .ret, encode (.drw 10 11 12), encode (.seReg 1 2), encode (.ldVxI 15), encode (.call 0xFED)] =
      [0x00EE#16, 0xDABC#16, 0x5120#16, 0xFF65#16, 0x2FED#16] := by decide

/-- The listings of S1, S3, P2, P3 and P6; R84's hexadecimal count of DRW. -/
theorem test_listing :
    [listingLine 0x200 0x8014, listingLine 0x200 0xA210, listingLine 0x202 0x00EE, listingLine 0x206 0xF265,
     listingLine 0x202 0x5121, listingLine 0x206 0xD012] =
      ["0x200: 8014  ADD V0, V1", "0x200: A210  LD I, 0x210", "0x202: 00EE  RET", "0x206: F265  LD V2, [I]",
       "0x202: .byte 51, 21", "0x206: D012  DRW V0, V1, 0x2"] := by decide +kernel

/-- R84: SHR and SHL are printed without y, and assembled with y = 0. -/
theorem test_shift_spelling (x y : Reg) :
    assembly (.shr x y) = assembly (.shr x 0) ∧ assembly (.shl x y) = assembly (.shl x 0) ∧
    encode (assembled (.shr 3 7)) = 0x8306 ∧ encode (assembled (.shl 3 7)) = 0x830E :=
  ⟨rfl, rfl, by decide, by decide⟩

/-! ## Fetch and the cycle -/

/-- V3 (D8): a fetch across the end of memory; the second byte is the font's 0xF0. -/
theorem test_fetch_wraps : cycle { State.reset with pc := 0xFFF } 0x12F0 (·.pc) = some 0x2F0 := by decide

/-- V1: with no program loaded the first cycle is SYS. -/
theorem test_first_cycle : (match step State.reset with | .next t => t.pc | .fault r => nomatch r | .refused _ => 0) =
    0x202 := by decide

/-- V4, V5 (D8): PC passes 0xFFF unmasked, and the cycle at 0x1000 fetches the font's F0 90, which is unmatched. -/
theorem test_pc_is_not_masked :
    cycle { State.reset with pc := 0xFFE } 0x0000 (·.pc) = some 0x1000 ∧
    after .executeCycle { State.reset with pc := 0x1000 } (fun t => (t.pc, t.faultRec)) =
      some (0x1002, some ⟨.unknownOpcode, 0xF090, 0x1000⟩) := by decide

/-- V7 (D20): an odd PC. -/
theorem test_odd_pc : cycle { State.reset with pc := 0x201 } 0x6042 (fun t => (t.readReg 0, t.pc)) = some (0x42, 0x203) := by
  decide

/-- V20: an unmatched word latches its fault. -/
theorem test_unmatched_faults :
    cycle State.reset 0x5121 (fun t => (t.faulted, t.faultRec, t.pc, t.faultCode)) =
      some (true, some ⟨.unknownOpcode, 0x5121, 0x200⟩, 0x202, 3) := by decide

/-! ## Control flow -/

theorem test_V40_sys : cycle State.reset 0x0123 (·.pc) = some 0x202 := by decide
theorem test_V42_jp : cycle State.reset 0x1201 (·.pc) = some 0x201 := by decide

theorem test_V45_call :
    cycle { State.reset with sp := 15, pc := 0x300 } 0x2400 (fun t => (t.stack[15], t.sp, t.pc, t.faulted)) =
      some (0x302, 16, 0x400, false) := by decide

theorem test_V46_call_full :
    cycle { State.reset with sp := 16, pc := 0x300 } 0x2400 (fun t => (t.faultRec, t.sp, t.pc, t.stack[15])) =
      some (some ⟨.stackOverflow, 0x2400, 0x300⟩, 16, 0x302, 0) := by decide

theorem test_V49_ret :
    cycle { State.reset with sp := 1, stack := State.reset.stack.set 0 0x10FE } 0x00EE
      (fun t => (t.pc, t.sp, t.stack[0])) = some (0x10FE, 0, 0x10FE) := by decide

theorem test_V48_ret_empty :
    cycle { State.reset with pc := 0x204 } 0x00EE (fun t => (t.faultRec, t.pc, t.sp)) =
      some (some ⟨.stackUnderflow, 0x00EE, 0x204⟩, 0x206, 0) := by decide

theorem test_V51_jpV0 : cycle (regs [(0, 0xFF)]) 0xBFFF (·.pc) = some 0x10FE := by decide
theorem test_V52_jpV0 : cycle (regs [(0, 0x01), (3, 0x80)]) 0xB300 (·.pc) = some 0x301 := by decide

/-! ## Skips -/

theorem test_V60_V61_seImm :
    cycle (regs [(3, 0x42)]) 0x3342 (·.pc) = some 0x204 ∧ cycle (regs [(3, 0x41)]) 0x3342 (·.pc) = some 0x202 := by decide

theorem test_V62_V63_sneImm :
    cycle (regs [(3, 0x41)]) 0x4342 (·.pc) = some 0x204 ∧ cycle (regs [(3, 0x42)]) 0x4342 (·.pc) = some 0x202 := by decide

theorem test_V64_V65_seReg :
    cycle (regs [(1, 7), (2, 7)]) 0x5120 (·.pc) = some 0x204 ∧ cycle (regs [(1, 7), (2, 8)]) 0x5120 (·.pc) = some 0x202 := by
  decide

theorem test_V67_V68_sneReg :
    cycle (regs [(1, 7), (2, 8)]) 0x9120 (·.pc) = some 0x204 ∧ cycle State.reset 0x9550 (·.pc) = some 0x202 := by decide

theorem test_V69_V70_skp :
    cycle { regs [(2, 0x17)] with keys := State.reset.keys.set 7 true } 0xE29E (·.pc) = some 0x204 ∧
    cycle (regs [(2, 7)]) 0xE29E (·.pc) = some 0x202 := by decide

theorem test_V71_V72_sknp :
    cycle (regs [(2, 0x27)]) 0xE2A1 (·.pc) = some 0x204 ∧
    cycle { regs [(2, 7)] with keys := State.reset.keys.set 7 true } 0xE2A1 (·.pc) = some 0x202 := by decide

/-- V75: a taken skip wraps PC. -/
theorem test_V75_skip_wraps : cycle { State.reset with pc := 0xFFFE } 0x3000 (·.pc) = some 0x0002 := by decide

/-! ## Register loads and arithmetic: V[x], VF -/

theorem test_V81_ldImm : cycle State.reset 0x6FFF (·.readReg vf) = some 0xFF := by decide

theorem test_V82_addImm :
    cycle (regs [(0, 0xFF), (15, 0x55)]) 0x7001 (fun t => (t.readReg 0, t.readReg vf)) = some (0x00, 0x55) := by decide

theorem test_V84_ldReg : cycle (regs [(1, 0x14)]) 0x8010 (fun t => (t.readReg 0, t.readReg 1)) = some (0x14, 0x14) := by decide

theorem test_V85_or :
    cycle (regs [(0, 0x0C), (1, 0x0A), (15, 0x55)]) 0x8011 (fun t => (t.readReg 0, t.readReg vf)) = some (0x0E, 0x55) := by
  decide

theorem test_V86_and :
    cycle (regs [(0, 0x0C), (1, 0x0A), (15, 0x55)]) 0x8012 (fun t => (t.readReg 0, t.readReg vf)) = some (0x08, 0x55) := by
  decide

theorem test_V87_xor :
    cycle (regs [(0, 0x0C), (1, 0x0A), (15, 0x55)]) 0x8013 (fun t => (t.readReg 0, t.readReg vf)) = some (0x06, 0x55) := by
  decide

theorem test_V90_V92_add :
    cycle (regs [(0, 0x80), (1, 0x80)]) 0x8014 (fun t => (t.readReg 0, t.readReg vf)) = some (0x00, 1) ∧
    cycle (regs [(0, 0xFF)]) 0x8014 (fun t => (t.readReg 0, t.readReg vf)) = some (0xFF, 0) ∧
    cycle (regs [(0, 0x81)]) 0x8004 (fun t => (t.readReg 0, t.readReg vf)) = some (0x02, 1) := by decide

theorem test_V120_V122_add_vf :
    cycle (regs [(15, 0x80), (1, 0x90)]) 0x8F14 (·.readReg vf) = some 0x10 ∧
    cycle (regs [(15, 0x90)]) 0x8FF4 (·.readReg vf) = some 0x20 ∧
    cycle (regs [(0, 0xFF), (15, 0x01)]) 0x80F4 (fun t => (t.readReg 0, t.readReg vf)) = some (0x00, 1) := by decide

theorem test_V93_V96_sub :
    cycle (regs [(0, 0x05), (1, 0x0A)]) 0x8015 (fun t => (t.readReg 0, t.readReg vf)) = some (0xFB, 0) ∧
    cycle (regs [(0, 0x0A), (1, 0x0A)]) 0x8015 (fun t => (t.readReg 0, t.readReg vf)) = some (0x00, 1) := by decide

theorem test_V123_V125_sub_vf :
    cycle (regs [(15, 0x05), (1, 0x03)]) 0x8F15 (·.readReg vf) = some 0xFE ∧
    cycle (regs [(0, 0x05), (15, 0x03)]) 0x80F5 (fun t => (t.readReg 0, t.readReg vf)) = some (0x04, 1) ∧
    cycle (regs [(15, 0x07)]) 0x8FF5 (·.readReg vf) = some 0 := by decide

theorem test_V100_shr :
    cycle (regs [(0, 0xFF)]) 0x8016 (fun t => (t.readReg 0, t.readReg vf, t.readReg 1)) = some (0x7F, 1, 0) := by decide

theorem test_V126_shr_vf : cycle (regs [(15, 0x03)]) 0x8F06 (·.readReg vf) = some 0 := by decide

theorem test_V101_V103_subn :
    cycle (regs [(0, 0x0A), (1, 0x05)]) 0x8017 (fun t => (t.readReg 0, t.readReg vf)) = some (0xFB, 0) ∧
    cycle (regs [(0, 0x33), (1, 0x33)]) 0x8017 (fun t => (t.readReg 0, t.readReg vf)) = some (0x00, 1) := by decide

theorem test_V127_V128_subn_vf :
    cycle (regs [(15, 0x05), (1, 0x03)]) 0x8F17 (·.readReg vf) = some 0x03 ∧
    cycle (regs [(0, 0x03), (15, 0x05)]) 0x80F7 (fun t => (t.readReg 0, t.readReg vf)) = some (0xFE, 1) := by decide

theorem test_V105_V107_shl :
    cycle (regs [(0, 0x7F)]) 0x800E (fun t => (t.readReg 0, t.readReg vf)) = some (0xFE, 0) ∧
    cycle (regs [(0, 0x81)]) 0x800E (fun t => (t.readReg 0, t.readReg vf)) = some (0x02, 1) := by decide

theorem test_V129_V130_shl_vf :
    cycle (regs [(15, 0x81)]) 0x8F0E (·.readReg vf) = some 0x02 ∧ cycle (regs [(15, 0x01)]) 0x8F0E (·.readReg vf) = some 0 := by
  decide

/-- The columns snapshot and flag_last of V120 to V123, V126, V127, V130. -/
theorem test_other_vf_orders :
    ([.snapshot, .flagLast].map fun o => ((regs [(15, 0x90)]).addFlagged o 15 15).readReg vf) = [0x20, 1] ∧
    ([.snapshot, .flagLast].map fun o => ((regs [(0, 0xFF), (15, 0x01)]).addFlagged o 0 15).readReg 0) = [0x00, 0x00] ∧
    ([.snapshot, .flagLast].map fun o => ((regs [(0, 0xFF), (15, 0x01)]).addFlagged o 0 15).readReg vf) = [1, 1] ∧
    ([.snapshot, .flagLast].map fun o => ((regs [(15, 0x80), (1, 0x90)]).addFlagged o 15 1).readReg vf) = [0x10, 1] ∧
    ([.snapshot, .flagLast].map fun o => ((regs [(15, 0x05), (1, 0x03)]).subFlagged o 15 1).readReg vf) = [0x02, 1] ∧
    ([.snapshot, .flagLast].map fun o => ((regs [(15, 0x03)]).shrFlagged o 15).readReg vf) = [0x01, 1] ∧
    ([.snapshot, .flagLast].map fun o => ((regs [(15, 0x05), (1, 0x03)]).subnFlagged o 15 1).readReg vf) = [0xFE, 0] ∧
    ([.snapshot, .flagLast].map fun o => ((regs [(15, 0x01)]).shlFlagged o 15).readReg vf) = [0x02, 0] := by decide

/-- V108: the source's byte is 0xB7. -/
theorem test_V108_rnd : (State.reset.randomInto 0xB7 3 0x0F).readReg 3 = 0x07 := by decide

/-- V109 (D19): one byte is consumed although kk = 0. -/
theorem test_V109_rnd : cycle State.reset 0xC300 (fun t => (t.rndCount, t.pc)) = some (1, 0x202) := by decide

/-! ## Index register and memory -/

theorem test_V141_ldI : cycle (regsI [] 0x1000) 0xA123 (·.i) = some 0x0123 := by decide

theorem test_V143_V144_addI :
    cycle (regsI [(0, 1), (15, 0x55)] 0x0FFF) 0xF01E (fun t => (t.i, t.readReg vf)) = some (0x1000, 0x55) ∧
    cycle (regsI [(0, 1)] 0xFFFF) 0xF01E (·.i) = some 0x0000 := by decide

theorem test_V145_V146_ldF :
    cycle (regs [(2, 0x07)]) 0xF229 (·.i) = some 0x0023 ∧ cycle (regs [(2, 0x1A)]) 0xF229 (·.i) = some 0x0032 := by decide

/-- V147: the other value of FONT_BASE. -/
theorem test_V147_ldF : glyphAddress .alternate 0x0F = 0x009B := by decide

theorem test_V149_ldB :
    cycle (regsI [(0, 173)] 0x300) 0xF033 (fun t => [0x300, 0x301, 0x302, 0x303].map t.mem.read) = some [1, 7, 3, 0] := by decide

theorem test_V155_ldB :
    cycle (regsI [(0, 123)] 0x1FFE) 0xF033 (fun t => ([0xFFE, 0xFFF, 0x000, 0x001].map t.mem.read, t.i)) =
      some ([1, 2, 3, 0x90], 0x1FFE) := by decide

theorem test_V156_ldIVx :
    cycle (regsI [(0, 1), (1, 2)] 0x300) 0xF155 (fun t => ([0x300, 0x301, 0x302].map t.mem.read, t.i)) =
      some ([1, 2, 0], 0x300) := by decide

theorem test_V158_ldIVx :
    cycle (regsI [(0, 1), (1, 2), (2, 3), (3, 4)] 0xFFE) 0xF355 (fun t => [0xFFE, 0xFFF, 0, 1, 2].map t.mem.read) =
      some [1, 2, 3, 4, 0x90] := by decide

theorem test_V160_ldVxI :
    cycle (State.poke (regsI [(3, 0x99)] 0x300) 0x300 [1, 2, 3, 4]) 0xF265
      (fun t => ([0, 1, 2, 3].map t.readReg, t.i)) = some ([1, 2, 3, 0x99], 0x300) := by decide

/-- V162: opcode bytes, the high one first. -/
theorem test_V162_ldVxI : cycle (regsI [] 0x200) 0xF165 (fun t => [0, 1, 2].map t.readReg) = some [0xF1, 0x65, 0] := by decide

/-- Glyph 0 and the last byte of glyph F of the font table (10_state.md R40). -/
theorem test_font : [0, 1, 2, 3, 4, 79, 80].map Memory.initial = [0xF0, 0x90, 0x90, 0x90, 0xF0, 0x80, 0] := by decide

/-! ## Delay timer and key wait -/

theorem test_V171_ldVxDt : cycle { State.reset with dt := 0x3C } 0xF307 (·.readReg 3) = some 0x3C := by decide
theorem test_V170_ldDtVx : cycle (regs [(3, 0x3C)]) 0xF315 (·.dt) = some 0x3C := by decide

theorem test_V175_ldVxK :
    cycle (regs [(3, 9)]) 0xF30A (fun t => (t.latch, t.pendingKey, t.pc, t.readReg 3, t.runState)) =
      some (some 3, none, 0x202, 9, .waitingKey) := by decide

/-- The end of V175. -/
def waiting : State := { State.reset with latch := some 3, pc := 0x202 }

/-- V177 (D11, D12): a release does not cancel the press; the cycle that ends the wait leaves PC. -/
theorem test_V177_key_wait :
    (after (.keyDown 2) waiting id).bind (fun s => (after (.keyUp 2) s id).bind fun s =>
      after .executeCycle s (fun t => (t.readReg 3, t.latch, t.keys[2], t.pc))) = some (2, none, false, 0x202) := by decide

/-- V178: the first press wins. -/
theorem test_V178_first_press :
    (after (.keyDown 4) waiting id).bind (fun s => after (.keyDown 9) s (fun t => (t.pendingKey, t.keys[4], t.keys[9]))) =
      some (some 4, true, true) := by decide

/-- V179: a held key makes no transition. -/
theorem test_V179_held_key :
    after (.keyDown 5) { waiting with keys := State.reset.keys.set 5 true } (·.pendingKey) = some none := by decide

/-- V182 (D16), V184. -/
theorem test_V182_V184_keys :
    after (.keyDown 16) waiting (fun t => (t.pendingKey, t.keys)) = some (none, State.reset.keys) ∧
    after (.keyDown 3) State.reset (fun t => (t.pendingKey, t.keys[3])) = some (none, true) := by decide

/-- V9 (D15), V173. -/
theorem test_V9_V173_timer :
    after .decrementTimers { State.reset with faulted := true, dt := 5 } (·.dt) = some 4 ∧
    after .decrementTimers State.reset (·.dt) = some 0 := by decide

/-! ## Display -/

theorem test_V190_cls :
    cycle { regs [(15, 0x55)] with fb := State.reset.fb.flip 3 2 } 0x00E0 (fun t => (t.fb.pixel 3 2, t.readReg vf)) =
      some (false, 0x55) := by decide

/-- V191: glyph 0 at the origin. -/
theorem test_V191_drw :
    cycle State.reset 0xD015 (fun t => [0, 1, 2, 3, 4, 5].map fun y => rowBits t y 5) =
      some [[true, true, true, true, false], [true, false, false, true, false], [true, false, false, true, false],
        [true, false, false, true, false], [true, true, true, true, false], [false, false, false, false, false]] := by
  decide +kernel

/-- V197 (D27): a sprite across both edges. -/
theorem test_V197_drw_wraps :
    cycle (State.poke (regsI [(0, 62), (1, 31)] 0x300) 0x300 [0xC3, 0x81]) 0xD012
      (fun t => ([((62 : Fin 64), (31 : Fin 32)), (63, 31), (4, 31), (5, 31), (62, 0), (5, 0), (63, 0), (0, 31)].map
        fun p => t.fb.pixel p.1 p.2, t.readReg vf)) =
      some ([true, true, true, true, true, true, false, false], 0) := by decide +kernel

/-- V194: a collision. V195: a lit pixel that is not hit. -/
theorem test_V194_V195_drw_collision :
    cycle (State.poke { regsI [] 0x300 with fb := State.reset.fb.flip 0 0 } 0x300 [0xC0]) 0xD011
      (fun t => (t.readReg vf, rowBits t 0 3)) = some (1, [false, true, false]) ∧
    cycle (State.poke { regsI [] 0x300 with fb := State.reset.fb.flip 1 0 } 0x300 [0x80]) 0xD011
      (fun t => (t.readReg vf, rowBits t 0 3)) = some (0, [true, true, false]) := by decide +kernel

/-- V196 (D25): no row. -/
theorem test_V196_drw_no_row :
    cycle { regs [(15, 1)] with fb := State.reset.fb.flip 3 2 } 0xD000 (fun t => (t.readReg vf, t.fb.pixel 3 2)) =
      some (0, true) := by decide

/-! ## Host transactions -/

/-- V11: reset clears the fault. -/
theorem test_V11_reset :
    after .reset { State.reset with faulted := true, faultRec := some ⟨.unknownOpcode, 0, 0⟩, pc := 7 }
      (fun t => (t.faulted, t.faultRec, t.pc)) = some (false, none, 0x200) := by decide

/-- S1's image; the byte after it is unchanged. -/
theorem test_load_program :
    after (.loadProgram [0x60, 0x0A, 0x61]) State.reset (fun t => [0x1FF, 0x200, 0x201, 0x202, 0x203].map t.mem.read) =
      some [0, 0x60, 0x0A, 0x61, 0] := by decide

/-- V12, V13 (D17): the largest program, and one byte more. -/
theorem test_V12_V13_load_size :
    respond (.loadProgram (List.replicate 3584 0xAB)) State.reset = .load .ok ∧
    respond (.loadProgram (List.replicate 3585 0xAB)) State.reset = .load .tooLarge := by decide +kernel

/-- V15: byte 131 of get_display. -/
theorem test_V15_get_display :
    (({ State.reset with fb := State.reset.fb.flip 3 2 } : State).getDisplay)[131]? = some 1 ∧
    (({ State.reset with fb := State.reset.fb.flip 3 2 } : State).getDisplay)[130]? = some 0 := by decide +kernel

/-- The schedule is run in order, and an empty one is execute_cycle (log 1). -/
theorem test_schedule :
    (match step { State.reset with dt := 2, schedule := [.decrementTimers, .keyDown 1] } with
      | .next t => (t.dt, t.pc, t.schedule) | .fault r => nomatch r | .refused _ => (0, 0, [])) =
      (1, 0x200, [.keyDown 1]) := by decide

/-- Memory stays canonical: writing what an unlisted address reads as removes the entry (log 24). -/
theorem test_memory_canonical :
    (Memory.write (Memory.write (Memory.write [] 0x300 5) 0x001 7) 0x300 0) = [(0x001, 7)] ∧
    (Memory.write [(0x001, 7)] 0x001 0x90) = [] := by decide

/-! ## Witnesses: states and operands that meet the hypotheses of the obligations -/

/-- A Running core that is no reset state: memory lists four bytes (JP 0x234 at PC, and the last two bytes of memory),
some registers, the stack, the timer and a key are set. -/
def sample : State :=
  { State.reset with
    mem := [(0x200, 0x12), (0x201, 0x34), (0xFFE, 0x80), (0xFFF, 0xC0)]
    v := ((State.reset.v.set 0 0x12).set 1 0x34).set 15 0x55
    i := 0x1FFE
    sp := 3
    stack := State.reset.stack.set 2 0x10FE
    dt := 7
    keys := State.reset.keys.set 7 true
    fb := State.reset.fb.flip 0 0 }

/-- The same, about to fetch the word op. -/
def sampleAt (op : Nat) : State := sample.withFetchWord 16 op

/-- The same, Faulted. -/
def sampleFaulted : State := { sample with faulted := true, faultRec := some ⟨.unknownOpcode, 0x5121, 0x1FE⟩ }

/-- The same, WaitingKey. -/
def sampleWaiting : State := { sample with latch := some 15 }

/-- FaultKindsAreNumbered, LoadProgramStoresImage, StepKeepsInvariant, DecimalDigitsAreStored, BlockIsStored: the
invariant, of a Running, a Faulted and a waiting core. -/
theorem test_witness_invariant : sample.Inv ∧ sampleFaulted.Inv ∧ sampleWaiting.Inv ∧
    ({ sampleWaiting with pendingKey := some 3 } : State).Inv :=
  ⟨⟨by decide, by decide, by decide, by decide⟩, ⟨by decide, by decide, by decide, by decide⟩,
    ⟨by decide, by decide, by decide, by decide⟩, ⟨by decide, by decide, by decide, by decide⟩⟩

/-- StepKeepsInvariant: and it takes a step. -/
theorem test_witness_StepKeepsInvariant : ∃ t, step sample = .next t ∧ t.pc = 0x234 := ⟨_, rfl, by decide⟩

/-- DecodeOfEncode: the instructions at the edges of the one check. -/
theorem test_witness_DecodeOfEncode :
    (Instr.sys 0x0E1).wellFormed = true ∧ (Instr.sys 0xFFF).wellFormed = true ∧ (Instr.drw 15 0 15).wellFormed = true := by
  decide

/-- EncodeOfDecode. -/
theorem test_witness_EncodeOfDecode :
    decode 0xDF0F#16 = .instr (.drw 15 0 15) ∧ decode 0x0FFF#16 = .instr (.sys 0xFFF) := by decide

/-- StepRunsDecodedInstruction: an empty schedule, one that begins with a cycle, and one that begins with `reset()`. -/
theorem test_witness_StepRunsDecodedInstruction :
    sample.runState = .running ∧ decode (fetch16 sample.mem sample.pc) = .instr (.jp 0x234) ∧ sample.schedule = [] ∧
    ({ sample with schedule := [.executeCycle, .reset] } : State).schedule = .executeCycle :: [.reset] ∧
    ({ sample with schedule := [.reset] } : State).schedule = .reset :: [] := by decide

/-- FetchIsBigEndianModulo: two PCs equal mod 4096. -/
theorem test_witness_FetchIsBigEndianModulo : (0x0FFF#16).toNat % 4096 = (0xFFFF#16).toNat % 4096 := by decide

/-- FaultedCycleChangesNothing. -/
theorem test_witness_FaultedCycleChangesNothing :
    sampleFaulted.runState = .faulted ∧ sampleFaulted.schedule = [] := by decide

/-- StalledCycleChangesNothing. -/
theorem test_witness_StalledCycleChangesNothing :
    sampleWaiting.runState = .waitingKey ∧ sampleWaiting.pendingKey = none ∧ sampleWaiting.schedule = [] := by decide

/-- PendingKeyEndsWait, with the latch on VF and key 15. -/
theorem test_witness_PendingKeyEndsWait :
    ({ sampleWaiting with pendingKey := some 15 } : State).runState = .waitingKey ∧
    ({ sampleWaiting with pendingKey := some 15 } : State).latch = some 15 ∧
    ({ sampleWaiting with pendingKey := some 15 } : State).pendingKey = some 15 := by decide

/-- FaultsArePrecise: each of the three faults. -/
theorem test_witness_FaultsArePrecise :
    ((sampleAt 0x5121).runState = .running ∧ decode (fetch16 (sampleAt 0x5121).mem (sampleAt 0x5121).pc) = .unmatched) ∧
    (({ sampleAt 0x2FFF with sp := 16 } : State).runState = .running ∧
      decode (fetch16 (sampleAt 0x2FFF).mem (sampleAt 0x2FFF).pc) = .instr (.call 0xFFF)) ∧
    (({ sampleAt 0x00EE with sp := 0 } : State).runState = .running ∧
      decode (fetch16 (sampleAt 0x00EE).mem (sampleAt 0x00EE).pc) = .instr .ret) := by decide

/-- RunStateMachine: a cycle from each run state, LD Vx, K, a RET with SP = 0, and another transaction. -/
theorem test_witness_RunStateMachine :
    (∃ t, executeCycle sampleFaulted = .next t ∧ sampleFaulted.runState = .faulted) ∧
    (∃ t, executeCycle sampleWaiting = .next t ∧ sampleWaiting.runState = .waitingKey ∧ sampleWaiting.pendingKey = none) ∧
    (∃ t, executeCycle { sampleWaiting with pendingKey := some 0 } = .next t ∧
      ({ sampleWaiting with pendingKey := some 0 } : State).runState = .waitingKey) ∧
    (∃ t, executeCycle (sampleAt 0x5121) = .next t ∧ (sampleAt 0x5121).runState = .running ∧
      decode (fetch16 (sampleAt 0x5121).mem (sampleAt 0x5121).pc) = .unmatched) ∧
    (∃ t, executeCycle (sampleAt 0xFF0A) = .next t ∧ (sampleAt 0xFF0A).runState = .running ∧
      decode (fetch16 (sampleAt 0xFF0A).mem (sampleAt 0xFF0A).pc) = .instr (.ldVxK 15)) ∧
    (∃ t, executeCycle { sampleAt 0x00EE with sp := 0 } = .next t ∧
      decode (fetch16 (sampleAt 0x00EE).mem (sampleAt 0x00EE).pc) = .instr .ret) ∧
    (∃ t, transact .reset sampleFaulted = .next t) ∧ (∃ t, transact (.keyDown 3) sampleWaiting = .next t) :=
  ⟨⟨_, rfl, by decide⟩, ⟨_, rfl, by decide, by decide⟩, ⟨_, rfl, by decide⟩, ⟨_, rfl, by decide, by decide⟩,
    ⟨_, rfl, by decide, by decide⟩, ⟨_, rfl, by decide⟩, ⟨_, rfl⟩, ⟨_, rfl⟩⟩

/-- SelfJumpRepeats: V43. -/
theorem test_witness_SelfJumpRepeats :
    (sampleAt 0x1200).runState = .running ∧
    decode (fetch16 (sampleAt 0x1200).mem (sampleAt 0x1200).pc) = .instr (.jp 0x200) ∧
    (0x200#12).toNat = (sampleAt 0x1200).pc.toNat ∧ (sampleAt 0x1200).schedule = [] := by decide

/-- KeyDownRecordsFirstTransition: the index 16; a key that is down; a key that is up, with a wait that has no pending
key, a wait that has one, and no wait. -/
theorem test_witness_KeyDownRecordsFirstTransition :
    16 ≤ (16#8).toNat ∧ ((7#8).toNat = (7 : KeyIx).val ∧ sample.keys[7] = true) ∧
    ((15#8).toNat = (15 : KeyIx).val ∧ sampleWaiting.keys[15] = false ∧ sampleWaiting.latch ≠ none ∧
      sampleWaiting.pendingKey = none) ∧
    ({ sampleWaiting with pendingKey := some 3 } : State).pendingKey ≠ none ∧ sample.latch = none := by decide

/-- KeyUpReleasesOneKey: the indices 15 and 16. -/
theorem test_witness_KeyUpReleasesOneKey : 16 ≤ (16#8).toNat ∧ (15#8).toNat = (15 : KeyIx).val := by decide

/-- LoadProgramStoresImage: the lengths 3584 and 3585, the last byte of the image, and the addresses beside it. -/
theorem test_witness_LoadProgramStoresImage :
    (List.replicate 3584 (0xAB : Byte)).length ≤ 3584 ∧ 3584 < (List.replicate 3585 (0xAB : Byte)).length ∧
    (List.replicate 3584 (0xAB : Byte))[3583]? = some 0xAB ∧ 0x1FF < 0x200 ∧ 0x200 + [0xAB#8].length ≤ 0x201 := by
  decide +kernel

/-- OnlyResetLeavesFaulted: `reset()`, a cycle and a key press of a Faulted core. -/
theorem test_witness_OnlyResetLeavesFaulted :
    sampleFaulted.faulted = true ∧
    ∀ q ∈ [Transaction.reset, .executeCycle, .keyDown 3], ∃ t, transact q sampleFaulted = .next t := by
  refine ⟨rfl, ?_⟩
  simp only [List.forall_mem_cons]
  exact ⟨⟨_, rfl⟩, ⟨_, rfl⟩, ⟨_, rfl⟩, nofun⟩

/-- SysChangesNothing. -/
theorem test_witness_SysChangesNothing : (0x0E1#12) ≠ 0x0E0#12 ∧ (0x0E1#12) ≠ 0x0EE#12 := by decide

/-- CallPushesReturnAddress, ReturnPopsReturnAddress, ReturnUndoesCall, OnlyCallAndReturnTouchSp: SP at the edges. -/
theorem test_witness_stack_pointer :
    (∃ s : State, s.sp.val = 15 ∧ s.sp.val < 16) ∧ (∃ s : State, s.sp.val = 16 ∧ 0 < s.sp.val) ∧
    (∃ s : State, s.sp.val = 1 ∧ 0 < s.sp.val) ∧ (∃ s : State, s.sp.val = 0 ∧ s.sp.val < 16) :=
  ⟨⟨{ sample with sp := 15 }, by decide⟩, ⟨{ sample with sp := 16 }, by decide⟩, ⟨{ sample with sp := 1 }, by decide⟩,
    ⟨{ sample with sp := 0 }, by decide⟩⟩

/-- OnlyCallAndReturnTouchSp: each of CALL, RET and another instruction answers a next state. -/
theorem test_witness_OnlyCallAndReturnTouchSp :
    (∃ t, exec (.call 0x300) sample = .next t) ∧ (∃ t, exec .ret sample = .next t) ∧
    (∃ t, exec .cls sample = .next t ∧ Instr.cls ≠ .ret ∧ ∀ nnn, Instr.cls ≠ .call nnn) ∧
    ∃ t, transact .reset sample = .next t :=
  ⟨⟨_, rfl⟩, ⟨_, rfl⟩, ⟨_, rfl, by decide, nofun⟩, ⟨_, rfl⟩⟩

/-- KeysSkip: the key of the low nibble of V2 = 0x1F. -/
theorem test_witness_KeysSkip : (15 : KeyIx).val = ((regs [(2, 0x1F)]).readReg 2).toNat % 16 := by decide

/-- AddSetsCarry, SubSetsNoBorrow, SubnSetsNoBorrow, ShiftsSetBitOut, VfReadingsAgreeAwayFromVf,
VfReadingsWhereVfIsAnOperand, DrawXorsTheSprite: register numbers that are VF's, and the highest that is not. -/
theorem test_witness_flag_register : (14 : Reg) ≠ vf ∧ (0 : Reg) ≠ vf ∧ (0 : Reg) ≠ 14 ∧ (15 : Reg) = vf := by decide

/-- GlyphAddressForEveryFontBase: the last byte of the last glyph. -/
theorem test_witness_GlyphAddressForEveryFontBase : 5 * ((0xFF#8).toNat % 16) + 4 < 80 := by decide

/-- DecimalDigitsAreStored, BlockIsStored: with I = 0x1FFE the address 1 is none of EA(0), EA(1), EA(2) or, for x = 2,
of EA(0) to EA(x), and 0 is one. -/
theorem test_witness_stored_addresses :
    (∀ k, k < 3 → effectiveAddress sample.i k ≠ 1) ∧ (∀ k : Reg, k ≤ 2 → effectiveAddress sample.i k.val ≠ 1) ∧
    effectiveAddress sample.i 2 = 0 := by decide

/-- BlockIsLoaded, BlockIsStored: registers in the block and above it. -/
theorem test_witness_block : (14 : Reg) ≤ 14 ∧ (14 : Reg) < 15 := by decide

/-- StoreReachesNextFetch: I and PC equal mod 4096, and not equal, at the end of memory. -/
theorem test_witness_StoreReachesNextFetch :
    (1 : Reg) ≤ 1 ∧ ({ sample with i := 0x1FFF, pc := 0x0FFF } : State).i.toNat % 4096 =
      ({ sample with i := 0x1FFF, pc := 0x0FFF } : State).pc.toNat % 4096 := by decide

/-- Its invariant. -/
theorem test_witness_StoreReachesNextFetch_inv : ({ sample with i := 0x1FFF, pc := 0x0FFF } : State).Inv :=
  ⟨by decide, by decide, by decide, by decide⟩

/-- A core about to run LD VF, K and the host about to invoke 3 cycles, `key_down(12)` and a cycle. -/
def aboutToWait : State :=
  { sampleAt 0xFF0A with
    schedule := [.executeCycle, .executeCycle, .executeCycle, .keyDown 12, .executeCycle, .decrementTimers] }

/-- KeyDownEndsKeyWait, with n = 2. -/
theorem test_witness_KeyDownEndsKeyWait :
    aboutToWait.runState = .running ∧ decode (fetch16 aboutToWait.mem aboutToWait.pc) = .instr (.ldVxK 15) ∧
    aboutToWait.keys[(12 : KeyIx)] = false ∧
    aboutToWait.schedule = List.replicate (2 + 1) .executeCycle ++
      [.keyDown (BitVec.ofNat 8 (12 : KeyIx).val), .executeCycle] ++ [.decrementTimers] := by decide

/-- DrawTwiceRestores: a draw that leaves both coordinates, and one at VF whose old value is the collision. -/
theorem test_witness_DrawTwiceRestores :
    (∃ t, exec (.drw 0 1 2) sample = .next t ∧ t.readReg 0 = sample.readReg 0 ∧ t.readReg 1 = sample.readReg 1) ∧
    (∃ t, exec (.drw 15 1 0) (regs []) = .next t ∧ t.readReg 15 = (regs []).readReg 15) :=
  ⟨⟨_, rfl, by decide +kernel, by decide +kernel⟩, ⟨_, rfl, by decide +kernel⟩⟩

/-- OnlyClearAndDrawTouchTheDisplay: CLS changes a framebuffer that is not blank; DRW's VF depends on it. -/
theorem test_witness_OnlyClearAndDrawTouchTheDisplay :
    (∃ t, exec .cls sample = .next t ∧ t.fb ≠ sample.fb) ∧
    (∃ t u, exec (.drw 2 3 1) sample = .next t ∧ exec (.drw 2 3 1) { sample with fb := State.reset.fb } = .next u ∧
      u.readReg vf ≠ t.readReg vf) :=
  ⟨⟨_, rfl, by decide +kernel⟩, ⟨_, _, rfl, rfl, by decide +kernel⟩⟩

/-- OnlyListedInstructionsWriteRegisters: an instruction and the end of a wait that change a register. -/
theorem test_witness_OnlyListedInstructionsWriteRegisters :
    (∃ t, exec (.ldImm 15 9) sample = .next t ∧ t.readReg 15 ≠ sample.readReg 15) ∧
    (∃ t, ({ sampleWaiting with pendingKey := some 3 } : State).runState = .waitingKey ∧
      executeCycle { sampleWaiting with pendingKey := some 3 } = .next t ∧ t.readReg 15 ≠ sampleWaiting.readReg 15) :=
  ⟨⟨_, rfl, by decide⟩, ⟨_, rfl, rfl, by decide⟩⟩

/-- ProgramCounterAdvancesByTwo: a plain instruction and a skip. -/
theorem test_witness_ProgramCounterAdvancesByTwo :
    (∃ t, (sampleAt 0xD01F).runState = .running ∧
      decode (fetch16 (sampleAt 0xD01F).mem (sampleAt 0xD01F).pc) = .instr (.drw 0 1 15) ∧
      executeCycle (sampleAt 0xD01F) = .next t ∧ (Instr.drw 0 1 15).isTransfer = false ∧
      (Instr.drw 0 1 15).isSkip = false) ∧
    (∃ t, (sampleAt 0x3012).runState = .running ∧
      decode (fetch16 (sampleAt 0x3012).mem (sampleAt 0x3012).pc) = .instr (.seImm 0 0x12) ∧
      executeCycle (sampleAt 0x3012) = .next t ∧ (Instr.seImm 0 0x12).isSkip = true) :=
  ⟨⟨_, by decide, by decide, rfl, by decide, by decide⟩, ⟨_, by decide, by decide, rfl, by decide⟩⟩

/-- EachPieceOfStateHasItsWriters: an instruction that changes each piece. -/
theorem test_witness_EachPieceOfStateHasItsWriters :
    (∃ t, exec (.ldDtVx 0) sample = .next t ∧ t.dt ≠ sample.dt) ∧
    (∃ t, exec (.ldI 0xFFF) sample = .next t ∧ t.i ≠ sample.i) ∧
    (∃ t, exec (.ldIVx 0) sample = .next t ∧ t.mem.read 0xFFE ≠ sample.mem.read 0xFFE) ∧
    (∃ t, exec (.call 0) sample = .next t ∧ t.stack ≠ sample.stack) ∧
    (∃ t, exec (.ldVxK 0) sample = .next t ∧ t.latch ≠ sample.latch) ∧
    (∃ t, exec .ret { sample with sp := 0 } = .next t ∧ t.faulted ≠ sample.faulted) :=
  ⟨⟨_, rfl, by decide⟩, ⟨_, rfl, by decide⟩, ⟨_, rfl, by decide⟩, ⟨_, rfl, by decide⟩, ⟨_, rfl, by decide⟩,
    ⟨_, rfl, by decide⟩⟩

/-- OnlyRandomReadsTheByteSource: RND and another instruction. -/
theorem test_witness_OnlyRandomReadsTheByteSource :
    (∃ t, exec (.rnd 0 0) sample = .next t) ∧ (∃ t, exec (.ldF 0) sample = .next t ∧ ∀ x kk, Instr.ldF 0 ≠ .rnd x kk) ∧
    (∃ t, transact .executeCycle (sampleAt 0xC300) = .next t ∧ t.rndCount ≠ (sampleAt 0xC300).rndCount) :=
  ⟨⟨_, rfl⟩, ⟨_, rfl, nofun⟩, ⟨_, rfl, by decide⟩⟩

/-- UpperBitsOfIndexAreIgnored: I = 0x1FFE and 0xFFFE. -/
theorem test_witness_UpperBitsOfIndexAreIgnored :
    (Instr.ldB 0).dereferencesI = true ∧ (0xFFFE#16).toNat % 4096 = sample.i.toNat % 4096 ∧
    ∃ t, exec (.ldB 0) sample = .next t := ⟨by decide, by decide, _, rfl⟩

end Sys2Proof.Tests
end

section
/-! R27: who reads and writes SP. Every body but those of CALL and RET commutes with putting another value in SP; that
such a body leaves SP alone then follows, by putting in the value it has. -/

namespace Sys2Proof.Machine

/-! ## CALL and RET -/

/-- CALL counts the slot it fills, or faults where none is free (R27). -/
theorem execCall_sp {nnn : Addr} {s t : State} (h : exec (.call nnn) s = .next t) :
    (s.sp.val < 16 → t.sp.val = s.sp.val + 1) ∧
    (s.sp.val = 16 → t.sp = s.sp ∧ t.faulted = true ∧ t.faultRec.map (·.kind) = some .stackOverflow) := by
  refine ⟨fun free => ?_, fun full => ?_⟩
  · rw [execCall_free nnn free] at h
    cases h
    simp
  · rw [execCall_full nnn full] at h
    cases h
    simp

/-- RET gives back the slot it empties, or faults where none is occupied (R27). -/
theorem execRet_sp {s t : State} (h : exec .ret s = .next t) :
    (0 < s.sp.val → t.sp.val + 1 = s.sp.val) ∧
    (s.sp.val = 0 → t.sp = s.sp ∧ t.faulted = true ∧ t.faultRec.map (·.kind) = some .stackUnderflow) := by
  refine ⟨fun occupied => ?_, fun empty => ?_⟩
  · rw [execRet_occupied occupied] at h
    cases h
    exact Nat.sub_add_cancel occupied
  · rw [execRet_empty empty] at h
    cases h
    simp

/-! ## Every other instruction -/

/-- The state with another value in SP. -/
def State.withSp (s : State) (q : Fin 17) : State := { s with sp := q }

theorem skipIf_withSp (s : State) (q : Fin 17) (c : Bool) : (s.withSp q).skipIf c = (s.skipIf c).withSp q := by
  cases c <;> rfl

theorem storeBlock_withSp (s : State) (q : Fin 17) (x : Reg) : (s.withSp q).storeBlock x = (s.storeBlock x).withSp q :=
  List.foldl_hom (State.withSp · q) fun _ _ => rfl

theorem loadBlock_withSp (s : State) (q : Fin 17) (x : Reg) : (s.withSp q).loadBlock x = (s.loadBlock x).withSp q :=
  List.foldl_hom (State.withSp · q) fun _ _ => rfl

/-- A body other than CALL's and RET's does the same whatever SP holds, and hands SP on. A skip, and a loop over
registers, commute with the change of SP by their lemmas above; the other bodies are single updates of other fields. -/
theorem exec_withSp {i : Instr} {s t : State} (q : Fin 17) (hret : i ≠ .ret) (hcall : ∀ nnn, i ≠ .call nnn)
    (h : exec i s = .next t) : exec i (s.withSp q) = .next (t.withSp q) := by
  cases i with
  | ret => exact absurd rfl hret
  | call nnn => exact absurd rfl (hcall nnn)
  | seImm | sneImm | seReg | sneReg | skp | sknp =>
    cases h
    exact congrArg Host.Outcome.next (skipIf_withSp s q _)
  | ldIVx x =>
    cases h
    exact congrArg Host.Outcome.next (storeBlock_withSp s q x)
  | ldVxI x =>
    cases h
    exact congrArg Host.Outcome.next (loadBlock_withSp s q x)
  | cls | sys | jp | ldImm | addImm | ldReg | orReg | andReg | xorReg | addReg | sub | shr | subn | shl | ldI | jpV0
  | rnd | drw | ldVxDt | ldVxK | ldDtVx | addI | ldF | ldB =>
    cases h
    rfl

/-- A body other than CALL's and RET's leaves SP: it commutes with putting in the value SP has. -/
theorem exec_keeps_sp {i : Instr} {s t : State} (hret : i ≠ .ret) (hcall : ∀ nnn, i ≠ .call nnn)
    (h : exec i s = .next t) : t.sp = s.sp := by
  have hsame : t = t.withSp s.sp := Host.Outcome.next.inj (h.symm.trans (exec_withSp s.sp hret hcall h))
  rw [hsame]
  rfl

/-- Settles O55: CALL and RET by their two courses each, every other instruction by `exec_withSp`. -/
theorem onlyCallAndReturnTouchSp : Obligations.OnlyCallAndReturnTouchSp := by
  refine ⟨fun _ _ _ h => execCall_sp h, fun _ _ h => execRet_sp h, fun _ _ _ q hret hcall h => ?_, fun _ _ h => ?_⟩
  · exact ⟨exec_keeps_sp hret hcall h, exec_withSp q hret hcall h⟩
  · cases h
    rfl

end Sys2Proof.Machine
end

section
/-! R107: the run-state machine. The run state is read from `Faulted` and `Latch` alone (10_state.md R34), so a body or
a transaction that writes neither keeps it; the only bodies that write one of them are those of LD Vx, K, of a RET with
SP = 0 and of a CALL with SP = 16. -/

namespace Sys2Proof.Machine

/-! ## What leaves the run state alone -/

theorem skipIf_runState (s : State) (c : Bool) : (s.skipIf c).runState = s.runState := by
  cases c <;> rfl

theorem storeBlock_runState (s : State) (x : Reg) : (s.storeBlock x).runState = s.runState := by
  rw [storeBlock_eq]
  rfl

theorem loadBlock_runState (s : State) (x : Reg) : (s.loadBlock x).runState = s.runState := by
  rw [(loadBlock_spec s x).1]
  rfl

theorem keyDown_runState (s : State) (i : Byte) : (s.keyDown i).runState = s.runState := by
  unfold State.keyDown
  cases keyOfByte i with
  | none => rfl
  | some k =>
    dsimp only
    split <;> rfl

theorem keyUp_runState (s : State) (i : Byte) : (s.keyUp i).runState = s.runState := by
  unfold State.keyUp
  cases keyOfByte i <;> rfl

theorem decrementTimers_runState (s : State) : s.decrementTimers.runState = s.runState := by
  unfold State.decrementTimers
  split <;> rfl

theorem loadProgram_runState (s : State) (bytes : List Byte) : (s.loadProgram bytes).runState = s.runState := by
  unfold State.loadProgram
  cases loadResult bytes <;> rfl

/-- No transaction but `reset()` and a cycle changes the run state (R110 to R114). -/
theorem transact_keeps_runState {q : Transaction} {s t : State} (hreset : q ≠ .reset) (hcycle : q ≠ .executeCycle)
    (h : transact q s = .next t) : t.runState = s.runState := by
  cases q with
  | reset => exact absurd rfl hreset
  | executeCycle => exact absurd rfl hcycle
  | loadProgram bytes =>
    cases h
    exact loadProgram_runState s bytes
  | decrementTimers =>
    cases h
    exact decrementTimers_runState s
  | keyDown i =>
    cases h
    exact keyDown_runState s i
  | keyUp i =>
    cases h
    exact keyUp_runState s i
  | getMemory | getDisplay | getRegisterV | getRegisterI | getRegisterPc | isFaulted =>
    cases h
    rfl

/-! ## What a body makes of the run state -/

/-- The body of i faults in s: a RET with no occupied slot or a CALL with no free one (60_exceptions.md R281, R282). -/
def State.BodyFaults (s : State) (i : Instr) : Prop :=
  (i = .ret ∧ s.sp.val = 0) ∨ ((∃ nnn, i = .call nnn) ∧ s.sp.val = 16)

theorem raiseFault_runState (s : State) (kind : FaultKind) (op a : Word) :
    (s.raiseFault kind op a).runState = .faulted :=
  (runState_faulted_iff _).2 rfl

theorem exec_runState_of_bodyFaults {i : Instr} {s t : State} (hfault : s.BodyFaults i) (h : exec i s = .next t) :
    t.runState = .faulted := by
  obtain ⟨rfl, empty⟩ | ⟨⟨nnn, rfl⟩, full⟩ := hfault
  · rw [execRet_empty empty] at h
    cases h
    exact raiseFault_runState s _ _ _
  · rw [execCall_full nnn full] at h
    cases h
    exact raiseFault_runState s _ _ _

theorem execLdVxK_runState {x : Reg} {s t : State} (hs : s.runState = .running) (h : exec (.ldVxK x) s = .next t) :
    t.runState = .waitingKey := by
  cases h
  exact (runState_waiting_iff _).2 ⟨((runState_running_iff s).1 hs).1, rfl⟩

/-- Every other body keeps the run state. RET has an occupied slot here and CALL a free one; a skip, and a loop over
registers, keep the run state by their lemmas above; the other bodies are updates of fields the run state is not read
from. -/
theorem exec_keeps_runState {i : Instr} {s t : State} (hwait : ∀ x, i ≠ .ldVxK x) (hfault : ¬ s.BodyFaults i)
    (h : exec i s = .next t) : t.runState = s.runState := by
  cases i with
  | ldVxK x => exact absurd rfl (hwait x)
  | ret =>
    have occupied : 0 < s.sp.val := Nat.pos_of_ne_zero fun empty => hfault (.inl ⟨rfl, empty⟩)
    rw [execRet_occupied occupied] at h
    cases h
    rfl
  | call nnn =>
    have notFull : s.sp.val ≠ 16 := fun full => hfault (.inr ⟨⟨nnn, rfl⟩, full⟩)
    rw [execCall_free nnn (by omega)] at h
    cases h
    rfl
  | seImm | sneImm | seReg | sneReg | skp | sknp =>
    cases h
    exact skipIf_runState s _
  | ldIVx x =>
    cases h
    exact storeBlock_runState s x
  | ldVxI x =>
    cases h
    exact loadBlock_runState s x
  | cls | sys | jp | ldImm | addImm | ldReg | orReg | andReg | xorReg | addReg | sub | shr | subn | shl | ldI | jpV0
  | rnd | drw | ldVxDt | ldDtVx | addI | ldF | ldB =>
    cases h
    rfl

/-! ## What a cycle makes of the run state -/

/-- A cycle of a waiting core leaves WaitingKey exactly if a key is pending (R103, R105). -/
theorem executeCycle_runState_of_waiting {s t : State} (hs : s.runState = .waitingKey) (h : executeCycle s = .next t) :
    t.runState = if s.pendingKey = none then .waitingKey else .running := by
  obtain ⟨hf, hl⟩ := (runState_waiting_iff s).1 hs
  obtain ⟨x, hx⟩ := Option.isSome_iff_exists.1 hl
  cases hp : s.pendingKey with
  | none =>
    rw [executeCycle_of_waiting hs hp] at h
    cases h
    exact hs
  | some k =>
    rw [executeCycle_of_pending hs hx hp] at h
    cases h
    exact (runState_running_iff _).2 ⟨hf, rfl⟩

/-- A Running core's cycle on an unmatched word (60_exceptions.md R280). -/
theorem executeCycle_runState_of_unmatched {s t : State} (hs : s.runState = .running)
    (hd : decode (fetch16 s.mem s.pc) = .unmatched) (h : executeCycle s = .next t) : t.runState = .faulted := by
  rw [executeCycle_of_running hs, runOpcode_of_unmatched hd] at h
  cases h
  exact raiseFault_runState _ _ _ _

/-- Settles O12: a cycle by the run state it starts in, its body by the three courses above, a transaction by
`transact_keeps_runState`. The body runs after the advance, which leaves the run state and SP as they are. -/
theorem runStateMachine : Obligations.RunStateMachine := by
  intro s t
  refine ⟨fun h => ⟨fun hs => ?_, fun hs hp => ?_, fun hs hp => ?_, fun hs hd => ?_, fun i hs hd => ?_⟩,
    fun h => ?_, fun _ hreset hcycle h => transact_keeps_runState hreset hcycle h⟩
  · rw [executeCycle_of_faulted ((runState_faulted_iff s).1 hs)] at h
    cases h
    exact hs
  · exact (executeCycle_runState_of_waiting hs h).trans (if_pos hp)
  · exact (executeCycle_runState_of_waiting hs h).trans (if_neg hp)
  · exact executeCycle_runState_of_unmatched hs hd h
  · rw [executeCycle_of_running hs, runOpcode_of_instr hd] at h
    have hadvance : s.advance.runState = .running := hs
    refine ⟨?_, fun hfault => exec_runState_of_bodyFaults (s := s.advance) hfault h,
      fun hfault hwait => (exec_keeps_runState (s := s.advance) hwait hfault h).trans hadvance⟩
    rintro ⟨x, rfl⟩
    exact execLdVxK_runState hadvance h
  · cases h
    rfl

end Sys2Proof.Machine
end

section
/-! 41_control_flow.md R130 to R133: SYS, RET, JP and CALL. The words are read back through format NNN; the courses of
CALL and RET at the edges of SP are those of Laws/Exec. -/

namespace Sys2Proof.Machine

/-! ## The words of format NNN, in numbers -/

/-- The number of a pattern `cnnn` is the word format NNN builds from its fields (30_encoding.md R72). -/
theorem patternNNN_eq_formatNNN (c : Nibble) (nnn : Addr) : patternNNN c.toNat nnn = formatNNN c nnn := by
  have hclass : (c.setWidth 16 <<< 12).toNat = 4096 * c.toNat := by
    simp only [BitVec.toNat_shiftLeft, BitVec.toNat_setWidth, Nat.shiftLeft_eq]
    have := c.isLt
    omega
  have haddr : (nnn.setWidth 16).toNat = nnn.toNat := BitVec.toNat_setWidth_of_le (by decide)
  apply BitVec.eq_of_toNat_eq
  rw [formatNNN, BitVec.toNat_or, hclass, haddr, ← Nat.two_pow_add_eq_or_of_lt nnn.isLt c.toNat, patternNNN,
    BitVec.toNat_ofNat]
  have hc := c.isLt
  have hnnn := nnn.isLt
  omega

@[simp] theorem zextAddr_toNat (nnn : Addr) : (zextAddr nnn).toNat = nnn.toNat :=
  BitVec.toNat_setWidth_of_le (by decide)

/-- A word whose address field differs from that of w is not w. -/
theorem formatNNN_ne {c : Nibble} {nnn : Addr} {w : Word} (h : nnn ≠ fieldNNN w) : formatNNN c nnn ≠ w := fun heq =>
  h (by rw [← heq, fieldNNN_formatNNN])

/-- A class-0 word is CLS's or RET's only if its address field is (30_encoding.md R76). -/
theorem decode_sysWord {nnn : Addr} (hcls : nnn ≠ 0x0E0#12) (hret : nnn ≠ 0x0EE#12) :
    decode (patternNNN 0x0 nnn) = .instr (.sys nnn) := by
  have notCls : formatNNN 0x0#4 nnn ≠ 0x00E0#16 := formatNNN_ne hcls
  have notRet : formatNNN 0x0#4 nnn ≠ 0x00EE#16 := formatNNN_ne hret
  exact (congrArg decode (patternNNN_eq_formatNNN 0x0#4 nnn)).trans (by simp [decode, decodeClass0, notCls, notRet])

theorem decode_jpWord (nnn : Addr) : decode (patternNNN 0x1 nnn) = .instr (.jp nnn) :=
  (congrArg decode (patternNNN_eq_formatNNN 0x1#4 nnn)).trans (by simp [decode])

theorem decode_callWord (nnn : Addr) : decode (patternNNN 0x2 nnn) = .instr (.call nnn) :=
  (congrArg decode (patternNNN_eq_formatNNN 0x2#4 nnn)).trans (by simp [decode])

/-! ## The bodies -/

/-- After a push every slot but the one at SP holds what it held (10_state.md R28). -/
theorem pushPc_slot {s : State} (free : s.sp.val < 16) (k : Fin 16) :
    (s.pushPc free).stack[k] = if k.val = s.sp.val then s.pc else s.stack[k] := by
  simp [Vector.getElem_set, eq_comm]

/-- A pop reads PC from the slot below SP, however the slot's number is written. -/
theorem popPc_pc_eq_slot {s : State} (occupied : 0 < s.sp.val) {k : Fin 16} (hk : k.val = s.sp.val - 1) :
    (s.popPc occupied).pc = s.stack[k] := by
  simp [hk]

/-- A fault raised by a body writes the latch and the record and nothing else (60_exceptions.md R283). -/
theorem bodyFault_frame (s : State) (kind : FaultKind) (i : Instr) :
    ∃ r, s.bodyFault kind i = { s with faulted := true, faultRec := some r } ∧ r.kind = kind :=
  ⟨_, rfl, rfl⟩

/-- Settles O25: a class-0 word with another nnn is neither 00E0 nor 00EE, and the body is the identity. -/
theorem sysChangesNothing : Obligations.SysChangesNothing :=
  ⟨fun _ hcls hret => decode_sysWord hcls hret, fun _ _ => rfl⟩

/-- Settles O26: the target is the zero-extended address field. -/
theorem jumpGoesToItsTarget : Obligations.JumpGoesToItsTarget := fun nnn s =>
  ⟨decode_jpWord nnn, s.writePc (zextAddr nnn), rfl, rfl, zextAddr_toNat nnn⟩

/-- Settles O27: by the two courses of CALL, a push and a fault. -/
theorem callPushesReturnAddress : Obligations.CallPushesReturnAddress := by
  refine fun nnn s => ⟨decode_callWord nnn, fun free => ?_, fun full => ?_⟩
  · exact ⟨_, execCall_free nnn free, rfl, rfl, zextAddr_toNat nnn, pushPc_slot free⟩
  · obtain ⟨r, hframe, hkind⟩ := bodyFault_frame s .stackOverflow (.call nnn)
    exact ⟨_, r, execCall_full nnn full, hframe, hkind⟩

/-- Settles O28: by the two courses of RET, a pop and a fault. -/
theorem returnPopsReturnAddress : Obligations.ReturnPopsReturnAddress := by
  refine ⟨rfl, fun s => ⟨fun occupied => ?_, fun empty => ?_⟩⟩
  · exact ⟨_, execRet_occupied occupied, rfl, rfl, fun _ hk => popPc_pc_eq_slot occupied hk⟩
  · obtain ⟨r, hframe, hkind⟩ := bodyFault_frame s .stackUnderflow .ret
    exact ⟨_, r, execRet_empty empty, hframe, hkind⟩

end Sys2Proof.Machine
end

section
/-! 42_skips.md R150 to R155: SE, SNE, SKP and SKNP. The words of formats XKK and XYN are read back from their numbers
here; the condition of a skip goes from the model's Bool to the proposition the rule states. -/

namespace Sys2Proof.Machine

/-! ## The fields of a word, in numbers (30_encoding.md R71) -/

theorem opClass_toNat (w : Word) : (opClass w).toNat = w.toNat / 4096 := by
  have := w.isLt
  simp only [opClass, BitVec.extractLsb'_toNat, Nat.shiftRight_eq_div_pow]
  omega

theorem fieldX_val (w : Word) : (fieldX w).val = w.toNat / 256 % 16 := by
  simp [fieldX, regOfNibble, Nat.shiftRight_eq_div_pow]

theorem fieldY_val (w : Word) : (fieldY w).val = w.toNat / 16 % 16 := by
  simp [fieldY, regOfNibble, Nat.shiftRight_eq_div_pow]

theorem fieldN_toNat (w : Word) : (fieldN w).toNat = w.toNat % 16 := by
  simp [fieldN]

theorem fieldKK_toNat (w : Word) : (fieldKK w).toNat = w.toNat % 256 := by
  simp [fieldKK]

/-! ## The words of formats XKK and XYN -/

/-- The number of a pattern `cxkk` is the word format XKK builds from its fields (30_encoding.md R72). -/
theorem patternXKK_eq_formatXKK (c : Nibble) (x : Reg) (kk : Byte) :
    patternXKK c.toNat x kk.toNat = formatXKK c x kk := by
  have hnum : (patternXKK c.toNat x kk.toNat).toNat = 4096 * c.toNat + 256 * x.val + kk.toNat := by
    rw [patternXKK, BitVec.toNat_ofNat, Nat.mod_eq_of_lt (by omega)]
  have hclass : opClass (patternXKK c.toNat x kk.toNat) = c :=
    BitVec.eq_of_toNat_eq (by rw [opClass_toNat, hnum]; omega)
  have hx : fieldX (patternXKK c.toNat x kk.toNat) = x := Fin.ext (by rw [fieldX_val, hnum]; omega)
  have hkk : fieldKK (patternXKK c.toNat x kk.toNat) = kk :=
    BitVec.eq_of_toNat_eq (by rw [fieldKK_toNat, hnum]; omega)
  rw [← formatXKK_fields (patternXKK c.toNat x kk.toNat), hclass, hx, hkk]

/-- The number of a pattern `cxyn` is the word format XYN builds from its fields (30_encoding.md R72). -/
theorem patternXYN_eq_formatXYN (c : Nibble) (x y : Reg) (n : Nibble) :
    patternXYN c.toNat x y n.toNat = formatXYN c x y n := by
  have hnum : (patternXYN c.toNat x y n.toNat).toNat = 4096 * c.toNat + 256 * x.val + 16 * y.val + n.toNat := by
    rw [patternXYN, BitVec.toNat_ofNat, Nat.mod_eq_of_lt (by omega)]
  have hclass : opClass (patternXYN c.toNat x y n.toNat) = c :=
    BitVec.eq_of_toNat_eq (by rw [opClass_toNat, hnum]; omega)
  have hx : fieldX (patternXYN c.toNat x y n.toNat) = x := Fin.ext (by rw [fieldX_val, hnum]; omega)
  have hy : fieldY (patternXYN c.toNat x y n.toNat) = y := Fin.ext (by rw [fieldY_val, hnum]; omega)
  have hn : fieldN (patternXYN c.toNat x y n.toNat) = n := BitVec.eq_of_toNat_eq (by rw [fieldN_toNat, hnum]; omega)
  rw [← formatXYN_fields (patternXYN c.toNat x y n.toNat), hclass, hx, hy, hn]

theorem decode_seImmWord (x : Reg) (kk : Byte) : decode (patternXKK 0x3 x kk.toNat) = .instr (.seImm x kk) :=
  (congrArg decode (patternXKK_eq_formatXKK 0x3#4 x kk)).trans (by simp [decode])

theorem decode_sneImmWord (x : Reg) (kk : Byte) : decode (patternXKK 0x4 x kk.toNat) = .instr (.sneImm x kk) :=
  (congrArg decode (patternXKK_eq_formatXKK 0x4#4 x kk)).trans (by simp [decode])

theorem decode_seRegWord (x y : Reg) : decode (patternXYN 0x5 x y 0) = .instr (.seReg x y) :=
  (congrArg decode (patternXYN_eq_formatXYN 0x5#4 x y 0#4)).trans (by simp [decode])

theorem decode_sneRegWord (x y : Reg) : decode (patternXYN 0x9 x y 0) = .instr (.sneReg x y) :=
  (congrArg decode (patternXYN_eq_formatXYN 0x9#4 x y 0#4)).trans (by simp [decode])

theorem decode_skpWord (x : Reg) : decode (patternXKK 0xE x 0x9E) = .instr (.skp x) :=
  (congrArg decode (patternXKK_eq_formatXKK 0xE#4 x 0x9E#8)).trans (by simp [decode, decodeClassE])

theorem decode_sknpWord (x : Reg) : decode (patternXKK 0xE x 0xA1) = .instr (.sknp x) :=
  (congrArg decode (patternXKK_eq_formatXKK 0xE#4 x 0xA1#8)).trans (by simp [decode, decodeClassE])

/-! ## The bodies -/

/-- The key index is the low nibble (30_encoding.md R74). -/
theorem keyIndex_val (b : Byte) : (keyIndex b).val = b.toNat % 16 := by
  simp [keyIndex, regOfNibble]

/-- A skip whose Bool says p skips where p holds. -/
theorem skipIf_eq_of_iff (s : State) {c : Bool} {p : Prop} [Decidable p] (h : c = true ↔ p) :
    s.skipIf c = { s with pc := if p then s.pc + 2#16 else s.pc } := by
  simp only [State.skipIf_eq, h]

/-- A skip whose Bool says that p fails skips where p fails. -/
theorem skipIf_eq_of_iff_not (s : State) {c : Bool} {p : Prop} [Decidable p] (h : c = true ↔ ¬ p) :
    s.skipIf c = { s with pc := if p then s.pc else s.pc + 2#16 } := by
  rw [skipIf_eq_of_iff s h, ite_not]

/-- Settles O31: the words by formats XKK and XYN, each body by what its comparison says. -/
theorem comparesSkip : Obligations.ComparesSkip := fun x y kk s =>
  ⟨decode_seImmWord x kk, decode_sneImmWord x kk, decode_seRegWord x y, decode_sneRegWord x y,
    congrArg Host.Outcome.next (skipIf_eq_of_iff s beq_iff_eq),
    congrArg Host.Outcome.next (skipIf_eq_of_iff_not s bne_iff_ne),
    congrArg Host.Outcome.next (skipIf_eq_of_iff s beq_iff_eq),
    congrArg Host.Outcome.next (skipIf_eq_of_iff_not s bne_iff_ne)⟩

/-- Settles O32: the words by format XKK; the key both bodies read is the one of the low nibble, `keyIndex_val`. -/
theorem keysSkip : Obligations.KeysSkip := by
  refine fun x s => ⟨decode_skpWord x, decode_sknpWord x, fun k hk => ?_⟩
  obtain rfl : k = keyIndex (s.readReg x) := Fin.ext (hk.trans (keyIndex_val _).symm)
  exact ⟨congrArg Host.Outcome.next (skipIf_eq_of_iff s Iff.rfl),
    congrArg Host.Outcome.next (skipIf_eq_of_iff_not s (by simp [State.keyDownAt]))⟩

end Sys2Proof.Machine
end

section
/-! 43_alu.md R170 to R175: LD, ADD immediate, OR, AND and XOR. Each body is one register write; what such a body leaves
unchanged is said once, for any value written. -/

namespace Sys2Proof.Machine

/-! ## The words -/

theorem decode_ldImmWord (x : Reg) (kk : Byte) : decode (patternXKK 0x6 x kk.toNat) = .instr (.ldImm x kk) :=
  (congrArg decode (patternXKK_eq_formatXKK 0x6#4 x kk)).trans (by simp [decode])

theorem decode_addImmWord (x : Reg) (kk : Byte) : decode (patternXKK 0x7 x kk.toNat) = .instr (.addImm x kk) :=
  (congrArg decode (patternXKK_eq_formatXKK 0x7#4 x kk)).trans (by simp [decode])

/-- A word of class 8 is told by its last nibble (30_encoding.md R75). -/
theorem decode_class8Word (x y : Reg) (n : Nibble) :
    decode (patternXYN 0x8 x y n.toNat) = decodeClass8 (formatXYN 0x8#4 x y n) :=
  (congrArg decode (patternXYN_eq_formatXYN 0x8#4 x y n)).trans (by simp [decode])

theorem decode_ldRegWord (x y : Reg) : decode (patternXYN 0x8 x y 0) = .instr (.ldReg x y) :=
  (decode_class8Word x y 0#4).trans (by simp [decodeClass8])

theorem decode_orRegWord (x y : Reg) : decode (patternXYN 0x8 x y 1) = .instr (.orReg x y) :=
  (decode_class8Word x y 1#4).trans (by simp [decodeClass8])

theorem decode_andRegWord (x y : Reg) : decode (patternXYN 0x8 x y 2) = .instr (.andReg x y) :=
  (decode_class8Word x y 2#4).trans (by simp [decodeClass8])

theorem decode_xorRegWord (x y : Reg) : decode (patternXYN 0x8 x y 3) = .instr (.xorReg x y) :=
  (decode_class8Word x y 3#4).trans (by simp [decodeClass8])

/-! ## The bodies -/

/-- The body of i answers a state that differs from s in V[x] at most, and p holds of the byte V[x] has there. -/
def WritesAlone (s : State) (x : Reg) (i : Instr) (p : Byte → Prop) : Prop :=
  ∃ t, exec i s = .next t ∧ t = { s with v := t.v } ∧ p (t.readReg x) ∧ ∀ r, r ≠ x → t.readReg r = s.readReg r

/-- A body that is one register write leaves all else alone, and the register has the byte written. -/
theorem writesAlone_of_exec {i : Instr} {s : State} {x : Reg} {b : Byte} {p : Byte → Prop}
    (h : exec i s = .next (s.writeReg x b)) (hb : p b) : WritesAlone s x i p :=
  ⟨s.writeReg x b, h, rfl, (State.readReg_writeReg_same s x b).symm ▸ hb,
    fun _ hr => State.readReg_writeReg_other s b hr⟩

theorem ldImm_writesAlone (x : Reg) (kk : Byte) (s : State) : WritesAlone s x (.ldImm x kk) (· = kk) :=
  writesAlone_of_exec rfl rfl

theorem addImm_writesAlone (x : Reg) (kk : Byte) (s : State) :
    WritesAlone s x (.addImm x kk) (·.toNat = ((s.readReg x).toNat + kk.toNat) % 256) :=
  writesAlone_of_exec rfl (BitVec.toNat_add _ _)

theorem ldReg_writesAlone (x y : Reg) (s : State) : WritesAlone s x (.ldReg x y) (· = s.readReg y) :=
  writesAlone_of_exec rfl rfl

theorem orReg_writesAlone (x y : Reg) (s : State) :
    WritesAlone s x (.orReg x y) fun v => ∀ n : Fin 8, v[n] = ((s.readReg x)[n] || (s.readReg y)[n]) :=
  writesAlone_of_exec rfl fun n => BitVec.getElem_or n.isLt

theorem andReg_writesAlone (x y : Reg) (s : State) :
    WritesAlone s x (.andReg x y) fun v => ∀ n : Fin 8, v[n] = ((s.readReg x)[n] && (s.readReg y)[n]) :=
  writesAlone_of_exec rfl fun n => BitVec.getElem_and n.isLt

theorem xorReg_writesAlone (x y : Reg) (s : State) :
    WritesAlone s x (.xorReg x y) fun v => ∀ n : Fin 8, v[n] = ((s.readReg x)[n] ^^ (s.readReg y)[n]) :=
  writesAlone_of_exec rfl fun n => BitVec.getElem_xor n.isLt

/-- Settles O33: the words by formats XKK and XYN, each body as the one register write it is (`writesAlone_of_exec`). -/
theorem loadsAndLogicWriteOneRegister : Obligations.LoadsAndLogicWriteOneRegister := fun x y kk s =>
  ⟨decode_ldImmWord x kk, decode_addImmWord x kk, decode_ldRegWord x y, decode_orRegWord x y, decode_andRegWord x y,
    decode_xorRegWord x y, ldImm_writesAlone x kk s, addImm_writesAlone x kk s, ldReg_writesAlone x y s,
    orReg_writesAlone x y s, andReg_writesAlone x y s, xorReg_writesAlone x y s⟩

end Sys2Proof.Machine
end

section
/-! 44_index_memory.md R200, R202 and R204: LD I, ADD I and LD F. Each body is one write of I; what such a body leaves
unchanged is said once, for any value written. -/

namespace Sys2Proof.Machine

/-! ## The words -/

theorem decode_ldIWord (nnn : Addr) : decode (patternNNN 0xA nnn) = .instr (.ldI nnn) :=
  (congrArg decode (patternNNN_eq_formatNNN 0xA#4 nnn)).trans (by simp [decode])

theorem decode_addIWord (x : Reg) : decode (patternXKK 0xF x 0x1E) = .instr (.addI x) :=
  (congrArg decode (patternXKK_eq_formatXKK 0xF#4 x 0x1E#8)).trans (by simp [decode, decodeClassF])

theorem decode_ldFWord (x : Reg) : decode (patternXKK 0xF x 0x29) = .instr (.ldF x) :=
  (congrArg decode (patternXKK_eq_formatXKK 0xF#4 x 0x29#8)).trans (by simp [decode, decodeClassF])

/-! ## The values written, in numbers -/

@[simp] theorem zextByte_toNat (b : Byte) : (zextByte b).toNat = b.toNat :=
  BitVec.toNat_setWidth_of_le (by decide)

/-- The glyph index is the low nibble (30_encoding.md R74). -/
theorem glyphIndex_eq (b : Byte) : glyphIndex b = b.toNat % 16 := by
  rw [glyphIndex, BitVec.toNat_and]
  exact Nat.and_two_pow_sub_one_eq_mod b.toNat 4

theorem fontBase_addr_le (base : Config.FontBase) : base.addr ≤ 0x050 := by
  cases base <;> decide

/-- No glyph address wraps: the last glyph of either font base lies far below 65536 (R204). -/
theorem glyphAddress_toNat (base : Config.FontBase) (b : Byte) :
    (glyphAddress base b).toNat = base.addr + 5 * (b.toNat % 16) := by
  have hbase := fontBase_addr_le base
  rw [glyphAddress, glyphIndex_eq, BitVec.toNat_ofNat, Nat.mod_eq_of_lt (by omega)]

/-! ## The bodies -/

/-- The instruction runs on, changes I alone, and leaves the number n there. -/
def WritesIndexAlone (s : State) (i : Instr) (n : Nat) : Prop :=
  ∃ t, exec i s = .next t ∧ t = { s with i := t.i } ∧ t.i.toNat = n

theorem writesIndexAlone_of_exec {i : Instr} {s : State} {w : Word} {n : Nat}
    (hexec : exec i s = .next (s.writeI w)) (hw : w.toNat = n) : WritesIndexAlone s i n :=
  ⟨s.writeI w, hexec, rfl, hw⟩

theorem ldI_writesIndexAlone (nnn : Addr) (s : State) : WritesIndexAlone s (.ldI nnn) nnn.toNat :=
  writesIndexAlone_of_exec rfl (zextAddr_toNat nnn)

theorem addI_writesIndexAlone (x : Reg) (s : State) :
    WritesIndexAlone s (.addI x) ((s.i.toNat + (s.readReg x).toNat) % 65536) :=
  writesIndexAlone_of_exec rfl (by rw [BitVec.toNat_add, zextByte_toNat])

theorem ldF_writesIndexAlone (x : Reg) (s : State) :
    WritesIndexAlone s (.ldF x) (fontBase.addr + 5 * ((s.readReg x).toNat % 16)) :=
  writesIndexAlone_of_exec rfl (glyphAddress_toNat fontBase (s.readReg x))

/-- Settles O41: the words by formats NNN and XKK, each body by `writesIndexAlone_of_exec` and the number of the word it
writes; the glyph range holds because a low nibble is at most 15. -/
theorem indexIsWritten : Obligations.IndexIsWritten := fun nnn x s =>
  have glyph_le : fontBase.addr + 5 * ((s.readReg x).toNat % 16) ≤ fontBase.addr + 75 := by omega
  ⟨decode_ldIWord nnn, decode_addIWord x, decode_ldFWord x, ldI_writesIndexAlone nnn s, addI_writesIndexAlone x s,
    ldF_writesIndexAlone x s, Nat.le_add_right _ _, glyph_le⟩

end Sys2Proof.Machine
end

section
/-! 45_timer_key.md R230 and R231: LD Vx, DT and LD DT, Vx. The first is one register write, the second one write of DT. -/

namespace Sys2Proof.Machine

/-! ## The words -/

theorem decode_ldVxDtWord (x : Reg) : decode (patternXKK 0xF x 0x07) = .instr (.ldVxDt x) :=
  (congrArg decode (patternXKK_eq_formatXKK 0xF#4 x 0x07#8)).trans (by simp [decode, decodeClassF])

theorem decode_ldDtVxWord (x : Reg) : decode (patternXKK 0xF x 0x15) = .instr (.ldDtVx x) :=
  (congrArg decode (patternXKK_eq_formatXKK 0xF#4 x 0x15#8)).trans (by simp [decode, decodeClassF])

/-! ## The bodies -/

theorem ldVxDt_writesAlone (x : Reg) (s : State) : WritesAlone s x (.ldVxDt x) (· = s.dt) :=
  writesAlone_of_exec rfl rfl

theorem exec_ldDtVx (x : Reg) (s : State) : exec (.ldDtVx x) s = .next (s.writeDt (s.readReg x)) :=
  rfl

/-- Settles O47: the words by format XKK, LD Vx, DT as the one register write it is, LD DT, Vx as one write of DT. -/
theorem timerIsCopied : Obligations.TimerIsCopied := fun x s =>
  ⟨decode_ldVxDtWord x, decode_ldDtVxWord x, ldVxDt_writesAlone x s, exec_ldDtVx x s⟩

end Sys2Proof.Machine
end

section
/-! R250 and R256: CLS, and who reads and writes the framebuffer. Every body but those of CLS and DRW commutes with
putting another framebuffer in the state; that such a body leaves the framebuffer alone then follows, by putting in the
one it has. -/

namespace Sys2Proof.Machine

/-! ## CLS -/

theorem pixel_clear (x : Fin 64) (y : Fin 32) : Framebuffer.clear.pixel x y = false := by
  simp [Framebuffer.pixel, Framebuffer.clear]

/-- Settles O50: the word is 00E0's own, and the body writes the blank framebuffer alone. -/
theorem clearBlanksTheDisplay : Obligations.ClearBlanksTheDisplay :=
  ⟨rfl, fun _ => ⟨_, rfl, rfl, pixel_clear⟩⟩

/-! ## Every instruction but CLS and DRW -/

/-- The instruction is CLS or a DRW (46_display.md R256). -/
def TouchesDisplay (i : Instr) : Prop := i = .cls ∨ ∃ x y n, i = .drw x y n

/-- The state with another framebuffer. -/
def State.withFb (s : State) (g : Framebuffer) : State := { s with fb := g }

theorem skipIf_withFb (s : State) (g : Framebuffer) (c : Bool) : (s.withFb g).skipIf c = (s.skipIf c).withFb g := by
  cases c <;> rfl

theorem storeBlock_withFb (s : State) (g : Framebuffer) (x : Reg) :
    (s.withFb g).storeBlock x = (s.storeBlock x).withFb g :=
  List.foldl_hom (State.withFb · g) fun _ _ => rfl

theorem loadBlock_withFb (s : State) (g : Framebuffer) (x : Reg) :
    (s.withFb g).loadBlock x = (s.loadBlock x).withFb g :=
  List.foldl_hom (State.withFb · g) fun _ _ => rfl

theorem execRet_withFb {s t : State} (g : Framebuffer) (h : exec .ret s = .next t) :
    exec .ret (s.withFb g) = .next (t.withFb g) := by
  obtain empty | occupied := Nat.eq_zero_or_pos s.sp.val
  · rw [execRet_empty empty] at h
    cases h
    exact execRet_empty (s := s.withFb g) empty
  · rw [execRet_occupied occupied] at h
    cases h
    exact execRet_occupied (s := s.withFb g) occupied

theorem execCall_withFb {nnn : Addr} {s t : State} (g : Framebuffer) (h : exec (.call nnn) s = .next t) :
    exec (.call nnn) (s.withFb g) = .next (t.withFb g) := by
  obtain free | full : s.sp.val < 16 ∨ s.sp.val = 16 := Nat.lt_or_eq_of_le (Nat.le_of_lt_succ s.sp.isLt)
  · rw [execCall_free nnn free] at h
    cases h
    exact execCall_free (s := s.withFb g) nnn free
  · rw [execCall_full nnn full] at h
    cases h
    exact execCall_full (s := s.withFb g) nnn full

/-- A body other than CLS's and DRW's does the same whatever the framebuffer holds, and hands the framebuffer on. RET
and CALL by their two courses, a skip and a loop over registers by their lemmas above; the other bodies are single
updates of other fields. -/
theorem exec_withFb {i : Instr} {s t : State} (g : Framebuffer) (hother : ¬ TouchesDisplay i)
    (h : exec i s = .next t) : exec i (s.withFb g) = .next (t.withFb g) := by
  cases i with
  | cls => exact absurd (.inl rfl) hother
  | drw x y n => exact absurd (.inr ⟨x, y, n, rfl⟩) hother
  | ret => exact execRet_withFb g h
  | call nnn => exact execCall_withFb g h
  | seImm | sneImm | seReg | sneReg | skp | sknp =>
    cases h
    exact congrArg Host.Outcome.next (skipIf_withFb s g _)
  | ldIVx x =>
    cases h
    exact congrArg Host.Outcome.next (storeBlock_withFb s g x)
  | ldVxI x =>
    cases h
    exact congrArg Host.Outcome.next (loadBlock_withFb s g x)
  | sys | jp | ldImm | addImm | ldReg | orReg | andReg | xorReg | addReg | sub | shr | subn | shl | ldI | jpV0 | rnd
  | ldVxDt | ldVxK | ldDtVx | addI | ldF | ldB =>
    cases h
    rfl

/-- A body other than CLS's and DRW's leaves the framebuffer: it commutes with putting in the one the state has. -/
theorem exec_keeps_fb {i : Instr} {s t : State} (hother : ¬ TouchesDisplay i) (h : exec i s = .next t) :
    t.fb = s.fb := by
  have hsame : t = t.withFb s.fb := Host.Outcome.next.inj (h.symm.trans (exec_withFb s.fb hother h))
  rw [hsame]
  rfl

/-! ## DRW -/

/-- VF is the one register DRW writes (R252, R255). -/
theorem execDrw_readReg_other {x y r : Reg} {n : Nibble} {s t : State} (h : exec (.drw x y n) s = .next t)
    (hr : r ≠ vf) : t.readReg r = s.readReg r := by
  cases h
  exact State.readReg_writeReg_other _ _ hr

/-- Settles O53: CLS ignores the framebuffer it finds, DRW hands on every register but VF whatever it draws on, every
other instruction by `exec_withFb`. -/
theorem onlyClearAndDrawTouchTheDisplay : Obligations.OnlyClearAndDrawTouchTheDisplay := by
  refine ⟨fun i s t h hne => ?_, fun s t h => ?_, fun i s t g h => ?_⟩
  · by_contra hother
    exact hne (exec_keeps_fb hother h)
  · cases h
    exact pixel_clear
  · by_cases htouch : TouchesDisplay i
    · obtain rfl | ⟨x, y, n, rfl⟩ := htouch
      · cases h
        exact ⟨_, rfl, rfl, fun _ hne => absurd rfl hne⟩
      · refine ⟨_, rfl, by cases h; rfl, fun r hne => ⟨?_, x, y, n, rfl⟩⟩
        by_contra hr
        exact hne ((execDrw_readReg_other rfl hr).trans (execDrw_readReg_other h hr).symm)
    · exact ⟨_, exec_withFb g htouch h, rfl, fun _ hne => absurd rfl hne⟩

end Sys2Proof.Machine
end

section
/-! 30_encoding.md: the decoder and the encoder are inverse to each other (R70, R75, R77), and the unmatched words
(R80). A word is its format applied to its fields, so the class and the fixed fields that a decoder's row has checked
are all that the two directions need. -/

namespace Sys2Proof.Machine

/-! ## Decoding an encoding -/

/-- Settles O2: the fields of each format read back as written; SYS is kept from the words of CLS and RET by its
well-formedness. -/
theorem decodeOfEncode : Obligations.DecodeOfEncode := by
  intro i hwf
  cases i with
  | cls | ret => rfl
  | sys nnn =>
    have hnnn : nnn ≠ 0x0E0#12 ∧ nnn ≠ 0x0EE#12 := by simpa [Instr.wellFormed, sysOperandOk] using hwf
    have hword : encode (.sys nnn) = patternNNN 0x0 nnn := (patternNNN_eq_formatNNN 0x0#4 nnn).symm
    exact hword ▸ decode_sysWord hnnn.1 hnnn.2
  | jp | call | seImm | sneImm | seReg | ldImm | addImm | sneReg | ldI | jpV0 | rnd | drw => simp [encode, decode]
  | ldReg | orReg | andReg | xorReg | addReg | sub | shr | subn | shl => simp [encode, decode, decodeClass8]
  | skp | sknp => simp [encode, decode, decodeClassE]
  | ldVxDt | ldVxK | ldDtVx | addI | ldF | ldB | ldIVx | ldVxI => simp [encode, decode, decodeClassF]

/-! ## Encoding what was decoded -/

/-- A word of class c is format NNN of c and its address field. -/
theorem formatNNN_of_class {op : Word} {c : Nibble} (hc : (opClass op).toNat = c.toNat) :
    formatNNN c (fieldNNN op) = op := by
  rw [← BitVec.eq_of_toNat_eq hc, formatNNN_fields]

/-- A word of class c with low byte kk is format XKK of c, its register field and kk. -/
theorem formatXKK_of_class {op : Word} {c : Nibble} {kk : Byte} (hc : (opClass op).toNat = c.toNat)
    (hkk : (fieldKK op).toNat = kk.toNat) : formatXKK c (fieldX op) kk = op := by
  rw [← BitVec.eq_of_toNat_eq hc, ← BitVec.eq_of_toNat_eq hkk, formatXKK_fields]

/-- A word of class c with low nibble n is format XYN of c, its register fields and n. -/
theorem formatXYN_of_class {op : Word} {c n : Nibble} (hc : (opClass op).toNat = c.toNat)
    (hn : (fieldN op).toNat = n.toNat) : formatXYN c (fieldX op) (fieldY op) n = op := by
  rw [← BitVec.eq_of_toNat_eq hc, ← BitVec.eq_of_toNat_eq hn, formatXYN_fields]

theorem encode_of_decodeClass0 {op : Word} {i : Instr} (hc : (opClass op).toNat = 0x0)
    (h : decodeClass0 op = .instr i) : encode i = op ∧ i.wellFormed = true := by
  have hword : formatNNN 0x0#4 (fieldNNN op) = op := formatNNN_of_class hc
  unfold decodeClass0 at h
  split at h
  case isTrue hcls =>
    cases h
    exact ⟨hcls.symm, rfl⟩
  case isFalse hcls =>
    split at h
    case isTrue hret =>
      cases h
      exact ⟨hret.symm, rfl⟩
    case isFalse hret =>
      cases h
      have notCls : fieldNNN op ≠ 0x0E0#12 := fun hnnn => hcls (by rw [← hword, hnnn]; rfl)
      have notRet : fieldNNN op ≠ 0x0EE#12 := fun hnnn => hret (by rw [← hword, hnnn]; rfl)
      exact ⟨hword, by simp [Instr.wellFormed, sysOperandOk, notCls, notRet]⟩

theorem encode_of_decodeClass8 {op : Word} {i : Instr} (hc : (opClass op).toNat = 0x8)
    (h : decodeClass8 op = .instr i) : encode i = op ∧ i.wellFormed = true := by
  unfold decodeClass8 at h
  split at h <;> cases h
  all_goals
    rename_i hn
    exact ⟨formatXYN_of_class hc hn, rfl⟩

theorem encode_of_decodeClassE {op : Word} {i : Instr} (hc : (opClass op).toNat = 0xE)
    (h : decodeClassE op = .instr i) : encode i = op ∧ i.wellFormed = true := by
  unfold decodeClassE at h
  split at h <;> cases h
  all_goals
    rename_i hkk
    exact ⟨formatXKK_of_class hc hkk, rfl⟩

theorem encode_of_decodeClassF {op : Word} {i : Instr} (hc : (opClass op).toNat = 0xF)
    (h : decodeClassF op = .instr i) : encode i = op ∧ i.wellFormed = true := by
  unfold decodeClassF at h
  split at h <;> cases h
  all_goals
    rename_i hkk
    exact ⟨formatXKK_of_class hc hkk, rfl⟩

/-- Settles O3: class by class, each row of the decoder has checked the fixed fields that its format puts back. -/
theorem encodeOfDecode : Obligations.EncodeOfDecode := by
  intro op i h
  unfold decode at h
  split at h
  case h_1 hc => exact encode_of_decodeClass0 hc h
  case h_9 hc => exact encode_of_decodeClass8 hc h
  case h_15 hc => exact encode_of_decodeClassE hc h
  case h_16 hc => exact encode_of_decodeClassF hc h
  case h_17 => cases h
  case h_2 hc | h_3 hc | h_11 hc | h_12 hc =>
    cases h
    exact ⟨formatNNN_of_class hc, rfl⟩
  case h_4 hc | h_5 hc | h_7 hc | h_8 hc | h_13 hc =>
    cases h
    exact ⟨formatXKK_of_class hc rfl, rfl⟩
  case h_14 hc =>
    cases h
    exact ⟨formatXYN_of_class hc rfl, rfl⟩
  case h_6 hc | h_10 hc =>
    split at h
    case isTrue hn =>
      cases h
      exact ⟨formatXYN_of_class hc (congrArg BitVec.toNat hn), rfl⟩
    case isFalse => cases h

/-! ## The unmatched words (R80) -/

/-- The class c and the low byte k of an unmatched word: the five spaces of the table of R80. -/
abbrev UnmatchedSpace (c k : Nat) : Prop :=
  (c = 0x5 ∧ k % 16 ≠ 0) ∨ (c = 0x8 ∧ k % 16 ∈ [0x8, 0x9, 0xA, 0xB, 0xC, 0xD, 0xF]) ∨ (c = 0x9 ∧ k % 16 ≠ 0) ∨
    (c = 0xE ∧ k ∉ [0x9E, 0xA1]) ∨ (c = 0xF ∧ k ∉ [0x07, 0x0A, 0x15, 0x1E, 0x29, 0x33, 0x55, 0x65])

theorem decodeClass0_ne_unmatched (op : Word) : decodeClass0 op ≠ .unmatched := by
  unfold decodeClass0
  split
  · nofun
  · split <;> nofun

theorem decodeClass8_unmatched_iff (op : Word) :
    decodeClass8 op = .unmatched ↔ (fieldN op).toNat ∈ [0x8, 0x9, 0xA, 0xB, 0xC, 0xD, 0xF] := by
  have hlt := (fieldN op).isLt
  unfold decodeClass8
  split
  case h_10 =>
    simp_all
    omega
  all_goals simp_all

theorem decodeClassE_unmatched_iff (op : Word) :
    decodeClassE op = .unmatched ↔ (fieldKK op).toNat ∉ [0x9E, 0xA1] := by
  unfold decodeClassE
  split <;> simp_all

theorem decodeClassF_unmatched_iff (op : Word) :
    decodeClassF op = .unmatched ↔ (fieldKK op).toNat ∉ [0x07, 0x0A, 0x15, 0x1E, 0x29, 0x33, 0x55, 0x65] := by
  unfold decodeClassF
  split <;> simp_all

theorem fieldN_eq_low_nibble (op : Word) : (fieldN op).toNat = (fieldKK op).toNat % 16 := by
  rw [fieldN_toNat, fieldKK_toNat, Nat.mod_mod_of_dvd _ (by decide)]

/-- Whether a word is unmatched is decided by its class and its low byte. -/
theorem decode_unmatched_iff (op : Word) :
    decode op = .unmatched ↔ UnmatchedSpace (opClass op).toNat (fieldKK op).toNat := by
  have hzero : fieldN op = 0#4 ↔ (fieldKK op).toNat % 16 = 0 := by
    rw [← fieldN_eq_low_nibble, ← BitVec.toNat_inj]
    rfl
  unfold decode
  split
  case h_1 hc => simp [hc, UnmatchedSpace, decodeClass0_ne_unmatched]
  case h_6 hc | h_10 hc => simp [hc, UnmatchedSpace, hzero]
  case h_9 hc =>
    rw [decodeClass8_unmatched_iff, fieldN_eq_low_nibble, hc]
    simp [UnmatchedSpace]
  case h_15 hc =>
    rw [decodeClassE_unmatched_iff, hc]
    simp [UnmatchedSpace]
  case h_16 hc =>
    rw [decodeClassF_unmatched_iff, hc]
    simp [UnmatchedSpace]
  case h_17 =>
    have hlt := (opClass op).isLt
    interval_cases (opClass op).toNat <;> contradiction
  all_goals
    rename_i hc
    simp [hc, UnmatchedSpace]

/-- Settles O4: the spaces in terms of the fields, with the fields as numbers. -/
theorem unmatchedWordsAreExactlyThese : Obligations.UnmatchedWordsAreExactlyThese := by
  intro op
  rw [decode_unmatched_iff, opClass_toNat, fieldKK_toNat]
  simp only [UnmatchedSpace, Nat.mod_mod_of_dvd op.toNat (show 16 ∣ 256 by decide)]

/-- The classes and low bytes of the unmatched words. -/
def unmatchedSpaces : Finset (Nibble × Byte) :=
  Finset.univ.filter fun p => UnmatchedSpace p.1.toNat p.2.toNat

theorem mem_unmatchedSpaces {c : Nibble} {kk : Byte} :
    (c, kk) ∈ unmatchedSpaces ↔ UnmatchedSpace c.toNat kk.toNat := by
  rw [unmatchedSpaces, Finset.mem_filter_univ]

/-- A word and its fields of format XKK. -/
def wordFields : Word ≃ (Nibble × Byte) × Reg where
  toFun op := ((opClass op, fieldKK op), fieldX op)
  invFun p := formatXKK p.1.1 p.2 p.1.2
  left_inv := formatXKK_fields
  right_inv p := by simp

/-- The unmatched words are those spaces with any register field. -/
theorem card_unmatched_eq :
    (Finset.univ.filter fun op : Word => decode op = .unmatched).card =
      (unmatchedSpaces ×ˢ (Finset.univ : Finset Reg)).card := by
  refine Finset.card_equiv wordFields fun op => ?_
  rw [Finset.mem_filter_univ, decode_unmatched_iff, Finset.mem_product, ← mem_unmatchedSpaces]
  exact (and_iff_left (Finset.mem_univ _)).symm

/-- The 4096 pairs of a class and a low byte are what is left to count of the 65536 words. -/
theorem card_unmatchedSpaces : unmatchedSpaces.card = 1094 := by
  decide +kernel

/-- Settles O5: 16 register fields for each of the 1094 pairs of a class and a low byte. -/
theorem unmatchedWordCount : Obligations.UnmatchedWordCount := by
  unfold Obligations.UnmatchedWordCount
  rw [card_unmatched_eq, Finset.card_product, card_unmatchedSpaces, Finset.card_univ, Fintype.card_fin]

/-! ## Written words (R75) -/

/-- Settles O1: each word is decoded. -/
theorem writtenWordsDecode : Obligations.WrittenWordsDecode := by
  unfold Obligations.WrittenWordsDecode
  decide

end Sys2Proof.Machine
end

section
/-! What the body of an instruction can do to the state, said once for all 34: `BodyEffect` has one constructor for
each kind of effect, and names the instructions that have it. The invariant, the writers of each piece of state and
the advance of PC are then read off its cases. -/

namespace Sys2Proof.Machine

/-! ## The effects of the bodies -/

/-- The kinds of effect a body can have on the state s; each but `data` names the instructions that have it. -/
inductive BodyEffect (s : State) : Instr → State → Prop where
  /-- Registers and pixels at most. -/
  | data (i : Instr) (v : Vector Byte 16) (fb : Framebuffer) : BodyEffect s i { s with v := v, fb := fb }
  /-- RND: a register, and the count of random bytes. -/
  | random (x : Reg) (kk : Byte) (v : Vector Byte 16) :
    BodyEffect s (.rnd x kk) { s with v := v, rndCount := s.rndCount + 1 }
  /-- A skip: PC stays or goes 2 further. -/
  | skip (i : Instr) (c : Bool) (hi : i.isSkip = true) : BodyEffect s i (s.skipIf c)
  /-- A jump: PC alone. -/
  | jump (i : Instr) (w : Word) (hi : i.isTransfer = true) : BodyEffect s i (s.writePc w)
  /-- CALL with a free slot. -/
  | push (nnn : Addr) (free : s.sp.val < 16) : BodyEffect s (.call nnn) ((s.pushPc free).writePc (zextAddr nnn))
  /-- RET with an occupied slot. -/
  | pop (occupied : 0 < s.sp.val) : BodyEffect s .ret (s.popPc occupied)
  /-- CALL with no free slot, RET with no occupied one. -/
  | fault (i : Instr) (kind : FaultKind) (hi : i = .ret ∨ ∃ nnn, i = .call nnn) : BodyEffect s i (s.bodyFault kind i)
  /-- I alone. -/
  | index (i : Instr) (w : Word) (hi : (∃ nnn, i = .ldI nnn) ∨ (∃ x, i = .addI x) ∨ ∃ x, i = .ldF x) :
    BodyEffect s i (s.writeI w)
  /-- Memory alone, and it stays canonical. -/
  | memory (i : Instr) (m : Memory) (hi : (∃ x, i = .ldB x) ∨ ∃ x, i = .ldIVx x)
    (hm : s.mem.wf = true → m.wf = true) : BodyEffect s i { s with mem := m }
  /-- LD DT: DT alone. -/
  | timer (x : Reg) (b : Byte) : BodyEffect s (.ldDtVx x) (s.writeDt b)
  /-- LD Vx, K: the key latches alone. -/
  | wait (x : Reg) : BodyEffect s (.ldVxK x) (s.beginWait x)

/-- A byte stored at an effective address keeps memory canonical. -/
theorem writeEA_wf {s : State} (k : Nat) (b : Byte) (h : s.mem.wf = true) : (s.writeEA k b).mem.wf = true :=
  Memory.wf_write b h (Memory.effectiveAddress_lt s.i k)

/-- The two courses of RET (R131). -/
theorem execRet_cases {s t : State} (h : exec .ret s = .next t) :
    (s.sp.val = 0 ∧ t = s.bodyFault .stackUnderflow .ret) ∨ ∃ occupied : 0 < s.sp.val, t = s.popPc occupied := by
  obtain empty | occupied := Nat.eq_zero_or_pos s.sp.val
  · exact .inl ⟨empty, Host.Outcome.next.inj (h.symm.trans (execRet_empty empty))⟩
  · exact .inr ⟨occupied, Host.Outcome.next.inj (h.symm.trans (execRet_occupied occupied))⟩

/-- The two courses of CALL (R133). -/
theorem execCall_cases {nnn : Addr} {s t : State} (h : exec (.call nnn) s = .next t) :
    (s.sp.val = 16 ∧ t = s.bodyFault .stackOverflow (.call nnn)) ∨
    ∃ free : s.sp.val < 16, t = (s.pushPc free).writePc (zextAddr nnn) := by
  obtain free | full : s.sp.val < 16 ∨ s.sp.val = 16 := Nat.lt_or_eq_of_le (Nat.le_of_lt_succ s.sp.isLt)
  · exact .inr ⟨free, Host.Outcome.next.inj (h.symm.trans (execCall_free nnn free))⟩
  · exact .inl ⟨full, Host.Outcome.next.inj (h.symm.trans (execCall_full nnn full))⟩

/-- Every body has one of these effects. -/
theorem exec_effect {i : Instr} {s t : State} (h : exec i s = .next t) : BodyEffect s i t := by
  cases i with
  | ret =>
    obtain ⟨-, rfl⟩ | ⟨occupied, rfl⟩ := execRet_cases h
    · exact .fault _ _ (.inl rfl)
    · exact .pop occupied
  | call nnn =>
    obtain ⟨-, rfl⟩ | ⟨free, rfl⟩ := execCall_cases h
    · exact .fault _ _ (.inr ⟨nnn, rfl⟩)
    · exact .push nnn free
  | jp | jpV0 =>
    cases h
    exact .jump _ _ rfl
  | seImm | sneImm | seReg | sneReg | skp | sknp =>
    cases h
    exact .skip _ _ rfl
  | rnd x kk =>
    cases h
    exact .random x kk _
  | ldI nnn =>
    cases h
    exact .index _ _ (.inl ⟨nnn, rfl⟩)
  | addI x =>
    cases h
    exact .index _ _ (.inr (.inl ⟨x, rfl⟩))
  | ldF x =>
    cases h
    exact .index _ _ (.inr (.inr ⟨x, rfl⟩))
  | ldB x =>
    cases h
    exact .memory _ _ (.inl ⟨x, rfl⟩) fun hm => writeEA_wf 2 _ (writeEA_wf 1 _ (writeEA_wf 0 _ hm))
  | ldIVx x =>
    cases h
    rw [storeBlock_eq]
    exact .memory _ _ (.inr ⟨x, rfl⟩) fun hm => (storeBlock_mem s x hm).1
  | ldVxI x =>
    cases h
    rw [(loadBlock_spec s x).1]
    exact .data _ _ _
  | ldDtVx x =>
    cases h
    exact .timer x _
  | ldVxK x =>
    cases h
    exact .wait x
  | cls | sys | ldImm | addImm | ldReg | orReg | andReg | xorReg | addReg | sub | shr | subn | shl | drw | ldVxDt =>
    cases h
    exact .data _ _ _

/-! ## The invariant -/

/-- The invariant speaks of memory and of the four fields of the run state and the key latches alone. -/
theorem State.Inv.of_same {s t : State} (hs : s.Inv) (hm : t.mem.wf = true) (hf : t.faulted = s.faulted)
    (hr : t.faultRec = s.faultRec) (hl : t.latch = s.latch) (hp : t.pendingKey = s.pendingKey) : t.Inv :=
  ⟨hm, by rw [hr, hf, hs.recordIffFaulted], by rw [hf, hl]; exact hs.faultedNotWaiting,
    by rw [hl, hp]; exact hs.pendingOnlyWhileWaiting⟩

theorem raiseFault_inv {s : State} (hs : s.Inv) (hrun : s.runState = .running) (kind : FaultKind) (op a : Word) :
    (s.raiseFault kind op a).Inv :=
  ⟨hs.memCanonical, rfl, fun _ => ((runState_running_iff s).1 hrun).2, hs.pendingOnlyWhileWaiting⟩

/-- The body of an instruction keeps the invariant in a Running core, the only one that runs it. -/
theorem exec_keeps_inv {i : Instr} {s t : State} (hs : s.Inv) (hrun : s.runState = .running)
    (h : exec i s = .next t) : t.Inv := by
  cases exec_effect h with
  | fault _ kind hi => exact raiseFault_inv hs hrun _ _ _
  | memory _ m hi hm => exact hs.of_same (hm hs.memCanonical) rfl rfl rfl rfl
  | wait x =>
    have hf := ((runState_running_iff s).1 hrun).1
    exact ⟨hs.memCanonical, hs.recordIffFaulted, fun h => absurd h (by simp [hf]), nofun⟩
  | skip _ c hi =>
    rw [State.skipIf_eq]
    exact hs.of_same hs.memCanonical rfl rfl rfl rfl
  | data | random | jump | push | pop | index | timer => exact hs.of_same hs.memCanonical rfl rfl rfl rfl

theorem endWait_inv {s : State} (hs : s.Inv) (x : Reg) (k : KeyIx) : (s.endWait x k).Inv :=
  ⟨hs.memCanonical, hs.recordIffFaulted, fun _ => rfl, fun _ => rfl⟩

theorem executeCycle_keeps_inv {s t : State} (hs : s.Inv) (h : executeCycle s = .next t) : t.Inv := by
  obtain ⟨-, rfl⟩ | ⟨x, k, -, -, -, rfl⟩ | ⟨-, -, rfl⟩ | ⟨i, hrun, -, hexec⟩ | ⟨hrun, -, rfl⟩ :=
    executeCycle_cases h
  · exact hs
  · exact endWait_inv hs x k
  · exact hs
  · exact exec_keeps_inv (hs.of_same (t := s.advance) hs.memCanonical rfl rfl rfl rfl) hrun hexec
  · exact raiseFault_inv (hs.of_same (t := s.advance) hs.memCanonical rfl rfl rfl rfl) hrun _ _ _

/-- Settles O23: the reset state lists no byte, waits for no key and records no fault. -/
theorem resetMeetsInvariant : Obligations.ResetMeetsInvariant :=
  ⟨rfl, rfl, fun _ => rfl, fun _ => rfl⟩

/-- `key_down` changes nothing or is a transition of some key that was up (R110). -/
theorem keyDown_cases (s : State) (i : Byte) : s.keyDown i = s ∨ ∃ k, s.keyDown i = s.pressKey k := by
  unfold State.keyDown
  cases keyOfByte i with
  | none => exact .inl rfl
  | some k =>
    dsimp only
    split
    · exact .inl rfl
    · exact .inr ⟨k, rfl⟩

theorem pressKey_inv {s : State} (hs : s.Inv) (k : KeyIx) : (s.pressKey k).Inv := by
  refine ⟨hs.memCanonical, hs.recordIffFaulted, hs.faultedNotWaiting, fun hl => ?_⟩
  have hlatch : s.latch = none := hl
  simp [State.pressKey, hlatch, hs.pendingOnlyWhileWaiting hlatch]

theorem keyUp_eq (s : State) (i : Byte) : s.keyUp i = { s with keys := (s.keyUp i).keys } := by
  unfold State.keyUp
  cases keyOfByte i <;> rfl

theorem keyUp_inv {s : State} (hs : s.Inv) (i : Byte) : (s.keyUp i).Inv := by
  rw [keyUp_eq]
  exact hs.of_same hs.memCanonical rfl rfl rfl rfl

theorem decrementTimers_eq (s : State) : s.decrementTimers = { s with dt := s.decrementTimers.dt } := by
  unfold State.decrementTimers
  split <;> rfl

theorem decrementTimers_inv {s : State} (hs : s.Inv) : s.decrementTimers.Inv := by
  rw [decrementTimers_eq]
  exact hs.of_same hs.memCanonical rfl rfl rfl rfl

/-- A program of at most 3584 bytes is loaded (R113). -/
theorem loadResult_ok {bytes : List Byte} (h : bytes.length ≤ 3584) : loadResult bytes = .ok :=
  if_neg (Nat.not_lt.2 h)

/-- A longer one is not (R113). -/
theorem loadResult_tooLarge {bytes : List Byte} (h : 3584 < bytes.length) : loadResult bytes = .tooLarge :=
  if_pos h

theorem loadProgram_of_fits (s : State) {bytes : List Byte} (h : bytes.length ≤ 3584) :
    s.loadProgram bytes = { s with mem := s.mem.writeBytes loadAddress bytes } := by
  simp only [State.loadProgram, loadResult_ok h]

theorem loadProgram_of_tooLarge (s : State) {bytes : List Byte} (h : 3584 < bytes.length) :
    s.loadProgram bytes = s := by
  simp only [State.loadProgram, loadResult_tooLarge h]

/-- A program that fits ends within memory. -/
theorem loadAddress_add_le {n : Nat} (h : n ≤ 3584) : loadAddress + n ≤ memorySize := by
  unfold loadAddress memorySize
  omega

theorem loadProgram_inv {s : State} (hs : s.Inv) (bytes : List Byte) : (s.loadProgram bytes).Inv := by
  obtain tooLarge | fits := Nat.lt_or_ge 3584 bytes.length
  · rwa [loadProgram_of_tooLarge s tooLarge]
  · rw [loadProgram_of_fits s fits]
    exact hs.of_same (Memory.wf_writeBytes hs.memCanonical (loadAddress_add_le fits)) rfl rfl rfl rfl

theorem transact_keeps_inv {q : Transaction} {s t : State} (hs : s.Inv) (h : transact q s = .next t) : t.Inv := by
  cases q with
  | executeCycle => exact executeCycle_keeps_inv hs h
  | reset =>
    cases h
    exact resetMeetsInvariant.of_same rfl rfl rfl rfl rfl
  | loadProgram bytes =>
    cases h
    exact loadProgram_inv hs bytes
  | decrementTimers =>
    cases h
    exact decrementTimers_inv hs
  | keyDown i =>
    cases h
    obtain hsame | ⟨k, hpress⟩ := keyDown_cases s i
    · rwa [hsame]
    · exact hpress ▸ pressKey_inv hs k
  | keyUp i =>
    cases h
    exact keyUp_inv hs i
  | getMemory | getDisplay | getRegisterV | getRegisterI | getRegisterPc | isFaulted =>
    cases h
    exact hs

/-- Settles O24: a step is a transaction on the state with a shorter schedule, of which the invariant does not speak. -/
theorem stepKeepsInvariant : Obligations.StepKeepsInvariant := fun s _ hs h =>
  transact_keeps_inv (hs.of_same (t := s.popSchedule) hs.memCanonical rfl rfl rfl rfl) h

/-! ## Progress -/

theorem runOpcode_answers_next (s : State) : ∃ t, runOpcode s = .next t := by
  cases hd : decode (fetch16 s.mem s.pc) with
  | instr i =>
    rw [runOpcode_of_instr hd]
    exact exec_answers_next i s.advance
  | unmatched => exact ⟨_, runOpcode_of_unmatched hd⟩

theorem executeCycle_answers_next (s : State) : ∃ t, executeCycle s = .next t := by
  cases hr : s.runState with
  | faulted => exact ⟨s, executeCycle_of_faulted ((runState_faulted_iff s).1 hr)⟩
  | running =>
    rw [executeCycle_of_running hr]
    exact runOpcode_answers_next s
  | waitingKey =>
    obtain ⟨x, hx⟩ := Option.isSome_iff_exists.1 ((runState_waiting_iff s).1 hr).2
    cases hp : s.pendingKey with
    | none => exact ⟨s, executeCycle_of_waiting hr hp⟩
    | some k => exact ⟨_, executeCycle_of_pending hr hx hp⟩

theorem transact_answers_next (q : Transaction) (s : State) : ∃ t, transact q s = .next t := by
  cases q with
  | executeCycle => exact executeCycle_answers_next s
  | reset | loadProgram | decrementTimers | keyDown | keyUp | getMemory | getDisplay | getRegisterV | getRegisterI
  | getRegisterPc | isFaulted => exact ⟨_, rfl⟩

/-- Settles O22: every transaction answers a next state, a cycle by the run state it starts in. -/
theorem everyStepAnswersNext : Obligations.EveryStepAnswersNext := fun s =>
  transact_answers_next s.nextTransaction s.popSchedule

/-! ## The writers of each piece of state -/

/-- Settles O57: by the effects, each of which names its instructions and changes its own fields. -/
theorem eachPieceOfStateHasItsWriters : Obligations.EachPieceOfStateHasItsWriters := by
  intro i s t h
  have unchanged {p : Prop} {α : Type} {a : α} (hne : a ≠ a) : p := absurd rfl hne
  have neither {p : Prop} {α β : Type} {a : α} {b : β} (hne : a ≠ a ∨ b ≠ b) : p := hne.elim unchanged unchanged
  cases exec_effect h with
  | skip _ c hi =>
    rw [State.skipIf_eq]
    exact ⟨rfl, unchanged, unchanged, fun _ => unchanged, unchanged, neither, neither⟩
  | push nnn free => exact ⟨rfl, unchanged, unchanged, fun _ => unchanged, fun _ => ⟨nnn, rfl⟩, neither, neither⟩
  | fault _ kind hi => exact ⟨rfl, unchanged, unchanged, fun _ => unchanged, unchanged, neither, fun _ => hi⟩
  | index _ w hi => exact ⟨rfl, unchanged, fun _ => hi, fun _ => unchanged, unchanged, neither, neither⟩
  | memory _ m hi hm => exact ⟨rfl, unchanged, unchanged, fun _ _ => hi, unchanged, neither, neither⟩
  | timer x b => exact ⟨rfl, fun _ => ⟨x, rfl⟩, unchanged, fun _ => unchanged, unchanged, neither, neither⟩
  | wait x => exact ⟨rfl, unchanged, unchanged, fun _ => unchanged, unchanged, fun _ => ⟨x, rfl⟩, neither⟩
  | data | random | jump | pop =>
    exact ⟨rfl, unchanged, unchanged, fun _ => unchanged, unchanged, neither, neither⟩

/-! ## The advance of PC -/

theorem isSkip_eq_false_of_isTransfer {i : Instr} (h : i.isTransfer = true) : i.isSkip = false := by
  cases i with
  | ret | jp | call | jpV0 => rfl
  | _ => cases h

/-- Of the instructions that are no transfer only the skips write PC, and they add 2 at most (R24). -/
theorem exec_pc {i : Instr} {s t : State} (h : exec i s = .next t) :
    (i.isTransfer = false → i.isSkip = false → t.pc = s.pc) ∧
    (i.isSkip = true → t.pc = s.pc ∨ t.pc = s.pc + 2#16) := by
  cases exec_effect h with
  | skip _ c hi =>
    refine ⟨fun _ hskip => absurd hi (by simp [hskip]), fun _ => ?_⟩
    rw [State.skipIf_pc]
    cases c
    · exact .inl rfl
    · exact .inr rfl
  | jump _ w hi =>
    refine ⟨fun htransfer => absurd hi (by simp [htransfer]), fun hskip => absurd hskip ?_⟩
    simp [isSkip_eq_false_of_isTransfer hi]
  | push | pop => exact ⟨nofun, nofun⟩
  | data | random | fault | index | memory | timer | wait => exact ⟨fun _ _ => rfl, fun _ => .inl rfl⟩

/-- Settles O56: a Running cycle runs the body with PC 2 further, and `exec_pc` says what the body adds. -/
theorem programCounterAdvancesByTwo : Obligations.ProgramCounterAdvancesByTwo := by
  intro s t i hrun hd h
  rw [executeCycle_of_running hrun, runOpcode_of_instr hd] at h
  obtain ⟨hplain, hskip⟩ := exec_pc h
  have htwice : s.advance.pc + 2#16 = s.pc + 4#16 := by
    rw [State.advance_pc, BitVec.add_assoc]
    rfl
  exact ⟨hplain, fun hi => (hskip hi).imp id (·.trans htwice)⟩

end Sys2Proof.Machine
end

section
/-! 40_cycle_and_interface.md section 2 and 60_exceptions.md section 1: the step and the cycle. A cycle takes one of the
courses of Laws/Exec; here is what each of them leaves behind. -/

namespace Sys2Proof.Machine

/-! ## The step and the fetch -/

/-- Settles O6: the two lemmas about `step`, and a Running cycle as the body after the advance. -/
theorem stepRunsDecodedInstruction : Obligations.StepRunsDecodedInstruction := by
  refine fun s => ⟨fun q rest => step_of_scheduled, step_of_idle,
    fun i hrun hd => ⟨fun hidle => ?_, fun rest hcycle => ?_⟩⟩
  · rw [step_of_idle hidle, executeCycle_of_running hrun, runOpcode_of_instr hd]
    rfl
  · rw [step_of_scheduled hcycle]
    exact (executeCycle_of_running (s := { s with schedule := rest }) hrun).trans (runOpcode_of_instr hd)

/-- Settles O7: a fetch sees the two reduced addresses alone. -/
theorem fetchIsBigEndianModulo : Obligations.FetchIsBigEndianModulo := by
  refine fun m a b => ⟨by rw [fetch16, wordOfBytes_toNat, Nat.mul_comm], fun h => ?_⟩
  have hnext : (a.toNat + 1) % 4096 = (b.toNat + 1) % 4096 := by omega
  rw [fetch16, fetch16, h, hnext]

/-! ## Cycles that fetch nothing -/

/-- Settles O8: the first course of a cycle. -/
theorem faultedCycleChangesNothing : Obligations.FaultedCycleChangesNothing := fun s hs =>
  have hcycle := executeCycle_of_faulted ((runState_faulted_iff s).1 hs)
  ⟨hcycle, fun hidle => (step_of_idle hidle).trans hcycle⟩

/-- Settles O9: the course of a wait with no pending key. -/
theorem stalledCycleChangesNothing : Obligations.StalledCycleChangesNothing := fun _ hs hp =>
  have hcycle := executeCycle_of_waiting hs hp
  ⟨hcycle, fun hidle => (step_of_idle hidle).trans hcycle⟩

@[simp] theorem byteOfKey_toNat (k : KeyIx) : (byteOfKey k).toNat = k.val := by
  rw [byteOfKey, BitVec.toNat_ofNat]
  omega

/-- Reading a register after a wait has ended (R105). -/
theorem readReg_endWait (s : State) (x r : Reg) (k : KeyIx) :
    (s.endWait x k).readReg r = if r = x then byteOfKey k else s.readReg r :=
  State.readReg_writeReg s x r (byteOfKey k)

/-- Settles O10: the course of a wait with a pending key. -/
theorem pendingKeyEndsWait : Obligations.PendingKeyEndsWait := by
  refine fun s x k hs hl hp => ⟨_, executeCycle_of_pending hs hl hp, rfl, ?_, ?_, fun r hr => ?_⟩
  · exact (runState_running_iff _).2 ⟨((runState_waiting_iff s).1 hs).1, rfl⟩
  · rw [readReg_endWait, if_pos rfl, byteOfKey_toNat]
  · rw [readReg_endWait, if_neg hr]

/-! ## Faults -/

/-- A fault raised by a body records the fetched word and the fetch address: the word is the instruction's encoding, and
PC is 2 further (60_exceptions.md R283; log 9). -/
theorem advance_bodyFault {s : State} {i : Instr} (hd : decode (fetch16 s.mem s.pc) = .instr i) (kind : FaultKind) :
    s.advance.bodyFault kind i =
      { s with pc := s.pc + 2#16, faulted := true, faultRec := some ⟨kind, fetch16 s.mem s.pc, s.pc⟩ } := by
  have haddress : s.advance.fetchAddress = s.pc := BitVec.add_sub_cancel s.pc 2#16
  rw [State.bodyFault, haddress, (encodeOfDecode _ _ hd).1]
  rfl

/-- A Running cycle that ends in Faulted fetched no instruction, or one whose body faults. -/
theorem executeCycle_faulted_cause {s t : State} (hrun : s.runState = .running) (h : executeCycle s = .next t)
    (hf : t.faulted = true) :
    decode (fetch16 s.mem s.pc) = .unmatched ∨ ∃ i, decode (fetch16 s.mem s.pc) = .instr i ∧ s.BodyFaults i := by
  have hfaulted : t.runState = .faulted := (runState_faulted_iff t).2 hf
  cases hd : decode (fetch16 s.mem s.pc) with
  | unmatched => exact .inl rfl
  | instr i =>
    obtain ⟨hwait, -, hother⟩ := ((runStateMachine s t).1 h).2.2.2.2 i hrun hd
    refine .inr ⟨i, rfl, ?_⟩
    by_contra hno
    by_cases hkey : ∃ x, i = .ldVxK x
    · exact absurd (hfaulted.symm.trans (hwait hkey)) nofun
    · exact absurd (hfaulted.symm.trans (hother hno fun x hx => hkey ⟨x, hx⟩)) nofun

/-- Settles O11: the unmatched word by the cycle itself, CALL and RET by their faulting courses; for the converse,
`executeCycle_faulted_cause`. -/
theorem faultsArePrecise : Obligations.FaultsArePrecise := by
  intro s hrun
  obtain ⟨t, h⟩ := executeCycle_answers_next s
  refine ⟨t, h, fun hd => ?_, fun ⟨nnn, hd⟩ full => ?_, fun hd empty => ?_, fun hf => ?_⟩
  · rw [executeCycle_of_running hrun, runOpcode_of_unmatched hd] at h
    exact (Host.Outcome.next.inj h).symm
  · rw [executeCycle_of_running hrun, runOpcode_of_instr hd, execCall_full (s := s.advance) nnn full,
      advance_bodyFault hd] at h
    exact (Host.Outcome.next.inj h).symm
  · rw [executeCycle_of_running hrun, runOpcode_of_instr hd, execRet_empty (s := s.advance) empty,
      advance_bodyFault hd] at h
    exact (Host.Outcome.next.inj h).symm
  · obtain hd | ⟨i, hd, ⟨rfl, empty⟩ | ⟨⟨nnn, rfl⟩, full⟩⟩ := executeCycle_faulted_cause hrun h hf
    · exact .inl hd
    · exact .inr (.inr ⟨hd, empty⟩)
    · exact .inr (.inl ⟨⟨nnn, hd⟩, full⟩)

/-- Settles O14: the codes by evaluation, and under the invariant no record means no fault. -/
theorem faultKindsAreNumbered : Obligations.FaultKindsAreNumbered := by
  refine ⟨rfl, rfl, rfl, fun s hs => ?_⟩
  rw [← hs.recordIffFaulted, State.faultCode]
  cases s.faultRec with
  | none => simp
  | some r => cases hk : r.kind <;> simp [hk, FaultKind.code]

/-! ## Runs -/

/-- A run of one step more begins with that step. -/
theorem core_run_succ {s t : State} (n : Nat) (h : step s = .next t) :
    Sys2Proof.core.run (n + 1) s = Sys2Proof.core.run n t := by
  have hstep : Sys2Proof.core.step s = .next t := h
  simp only [Host.Core.run, hstep]

/-- A state that a step leaves as it is, every run leaves so. -/
theorem core_run_of_fixed {s : State} (h : step s = .next s) (n : Nat) : Sys2Proof.core.run n s = .next s := by
  induction n with
  | zero => rfl
  | succ n ih => rw [core_run_succ n h, ih]

/-- Settles O13: a jump to its own address is a step that changes nothing. -/
theorem selfJumpRepeats : Obligations.SelfJumpRepeats := by
  intro s nnn hrun hd htarget hidle n
  have hpc : zextAddr nnn = s.pc := BitVec.eq_of_toNat_eq ((zextAddr_toNat nnn).trans htarget)
  refine core_run_of_fixed ?_ n
  rw [step_of_idle hidle, executeCycle_of_running hrun, runOpcode_of_instr hd]
  exact congrArg Host.Outcome.next (congrArg s.writePc hpc)

end Sys2Proof.Machine
end

section
/-! 40_cycle_and_interface.md sections 3 to 6, 70_reset_and_hazards.md section 1: the host's transactions. -/

namespace Sys2Proof.Machine

/-! ## Keys (R110, R111) -/

theorem keyOfByte_of_large {i : Byte} (h : 16 ≤ i.toNat) : keyOfByte i = none :=
  dif_neg (Nat.not_lt.2 h)

theorem keyOfByte_of_val {i : Byte} {k : KeyIx} (h : i.toNat = k.val) : keyOfByte i = some k := by
  rw [keyOfByte, dif_pos (h ▸ k.isLt)]
  exact congrArg some (Fin.ext h)

theorem keyDown_of_down {s : State} {i : Byte} {k : KeyIx} (hi : i.toNat = k.val) (hk : s.keys[k] = true) :
    s.keyDown i = s := by
  have hdown : s.keyDownAt k = true := hk
  simp only [State.keyDown, keyOfByte_of_val hi, hdown, if_true]

theorem keyDown_of_up {s : State} {i : Byte} {k : KeyIx} (hi : i.toNat = k.val) (hk : s.keys[k] = false) :
    s.keyDown i = s.pressKey k := by
  have hup : s.keyDownAt k = false := hk
  simp only [State.keyDown, keyOfByte_of_val hi, hup, Bool.false_eq_true, if_false]

/-- Reading a key after setting one. -/
theorem getElem_set_key (keys : Vector Bool 16) (k j : KeyIx) (b : Bool) :
    (keys.set k b)[j] = if j = k then b else keys[j] := by
  simp only [Fin.getElem_fin, Vector.getElem_set, Fin.ext_iff, eq_comm]

theorem pressKey_pendingKey (s : State) (k : KeyIx) : (s.pressKey k).pendingKey =
    if s.latch ≠ none ∧ s.pendingKey = none then some k else s.pendingKey := by
  unfold State.pressKey
  cases s.latch <;> cases s.pendingKey <;> rfl

/-- Settles O15: the index by `keyOfByte`, the transition by `pressKey`. -/
theorem keyDownRecordsFirstTransition : Obligations.KeyDownRecordsFirstTransition := by
  refine fun s i => ⟨fun hi => ?_, fun k hi hk => congrArg Host.Outcome.next (keyDown_of_down hi hk), fun k hi hk => ?_⟩
  · simp only [transact, State.keyDown, keyOfByte_of_large hi]
  · refine ⟨s.pressKey k, congrArg Host.Outcome.next (keyDown_of_up hi hk), rfl,
      fun j => getElem_set_key s.keys k j true, fun hl hp => ?_, fun h => ?_⟩
    · rw [pressKey_pendingKey, if_pos ⟨hl, hp⟩]
    · rw [pressKey_pendingKey, if_neg (by tauto)]

/-- Settles O16: the index by `keyOfByte`, then one key is set. -/
theorem keyUpReleasesOneKey : Obligations.KeyUpReleasesOneKey := by
  refine fun s i => ⟨fun hi => ?_, fun k hi => ?_⟩
  · simp only [transact, State.keyUp, keyOfByte_of_large hi]
  · refine ⟨{ s with keys := s.keys.set k false }, ?_, rfl, fun j => getElem_set_key s.keys k j false⟩
    simp only [transact, State.keyUp, keyOfByte_of_val hi]

/-! ## The timer (R112) -/

theorem decrementTimers_dt (s : State) : s.decrementTimers.dt.toNat = s.dt.toNat - 1 := by
  unfold State.decrementTimers
  split
  case isTrue hzero => simp [hzero]
  case isFalse hpos =>
    have hpos' : s.dt.toNat ≠ 0 := fun h => hpos (BitVec.eq_of_toNat_eq h)
    rw [State.writeDt_dt, BitVec.toNat_sub_of_le (by rw [BitVec.le_def]; exact Nat.one_le_iff_ne_zero.2 hpos')]
    rfl

/-- Settles O17. -/
theorem timerTickSaturates : Obligations.TimerTickSaturates := fun s =>
  ⟨s.decrementTimers, rfl, decrementTimers_eq s, decrementTimers_dt s⟩

/-! ## Program load (R113) -/

/-- Settles O18: an image that fits by reading after `writeBytes`, one that does not by the refusal. -/
theorem loadProgramStoresImage : Obligations.LoadProgramStoresImage := by
  refine fun s bytes hs => ⟨fun fits => ?_, fun tooLarge => ?_⟩
  · have hread := Memory.read_writeBytes (bs := bytes) hs.memCanonical (loadAddress_add_le fits)
    refine ⟨congrArg Response.load (loadResult_ok fits), _, congrArg Host.Outcome.next (loadProgram_of_fits s fits),
      rfl, fun j b hj => ?_, fun a _ hout => ?_⟩
    · obtain ⟨hlt, hb⟩ := List.getElem?_eq_some_iff.1 hj
      have hin : loadAddress ≤ 0x200 + j ∧ 0x200 + j < loadAddress + bytes.length :=
        ⟨Nat.le_add_right _ _, Nat.add_lt_add_left hlt _⟩
      have hoffset : 0x200 + j - loadAddress = j := Nat.add_sub_cancel_left _ _
      rw [hread, if_pos hin, hoffset, List.getD_eq_getElem _ _ hlt, hb]
    · have hnot : ¬ (loadAddress ≤ a ∧ a < loadAddress + bytes.length) := by
        unfold loadAddress
        omega
      rw [hread, if_neg hnot]
  · exact ⟨congrArg Response.load (loadResult_tooLarge tooLarge),
      congrArg Host.Outcome.next (loadProgram_of_tooLarge s tooLarge)⟩

/-! ## Inspectors (R114) -/

theorem getMemory_getElem? (s : State) {a : Nat} (h : a < 4096) : s.getMemory[a]? = some (s.mem.read a) := by
  have ha : a < memorySize := h
  simp [State.getMemory, ha]

/-- The display is the framebuffer's rows in one line. -/
theorem getDisplay_eq (s : State) : s.getDisplay = s.fb.flatten.toList.map pixelByte := by
  have hrows : s.fb.flatten.toList = (s.fb.toList.map Vector.toList).flatten := by
    simp [Vector.flatten]
    rfl
  rw [hrows, List.map_flatten, List.map_map]
  rfl

theorem getDisplay_getElem? (s : State) (x : Fin 64) (y : Fin 32) :
    s.getDisplay[x.val + 64 * y.val]? = some (pixelByte (s.fb.pixel x y)) := by
  have hrow : (x.val + 64 * y.val) / 64 = y.val := by omega
  have hcolumn : (x.val + 64 * y.val) % 64 = x.val := by omega
  have hlt : x.val + 64 * y.val < 32 * 64 := by omega
  have hpixel : s.fb.flatten[x.val + 64 * y.val] = s.fb.pixel x y := by
    simp only [Vector.getElem_flatten, hrow, hcolumn, Framebuffer.pixel, Fin.getElem_fin]
  simp [getDisplay_eq, ← hpixel, hlt]

/-- Settles O19: each inspector answers its list or its field, element by element. -/
theorem inspectorsReturnTheState : Obligations.InspectorsReturnTheState := by
  refine fun s => ⟨?_, ⟨_, rfl, ?_, fun a => getMemory_getElem? s⟩, ⟨_, rfl, ?_, getDisplay_getElem? s⟩,
    ⟨_, rfl, Vector.length_toList, fun r => ?_⟩, rfl, rfl, rfl⟩
  · simp [transact]
  · simp [State.getMemory, memorySize]
  · simp [getDisplay_eq]
  · simp [State.readReg]

/-! ## Reset (R41, R289, R310) -/

/-- The transactions but `reset()` and a cycle write memory, DT, the keypad and the pending key at most (R110 to
R114). -/
theorem transact_frame {q : Transaction} {s t : State} (hreset : q ≠ .reset) (hcycle : q ≠ .executeCycle)
    (h : transact q s = .next t) :
    t = { s with mem := t.mem, dt := t.dt, keys := t.keys, pendingKey := t.pendingKey } := by
  cases q with
  | reset => exact absurd rfl hreset
  | executeCycle => exact absurd rfl hcycle
  | loadProgram bytes =>
    cases h
    unfold State.loadProgram
    cases loadResult bytes <;> rfl
  | decrementTimers =>
    cases h
    rw [decrementTimers_eq]
  | keyDown i =>
    cases h
    obtain hsame | ⟨k, hpress⟩ := keyDown_cases s i
    · rw [hsame]
    · rw [hpress]
      rfl
  | keyUp i =>
    cases h
    rw [keyUp_eq]
  | getMemory | getDisplay | getRegisterV | getRegisterI | getRegisterPc | isFaulted =>
    cases h
    rfl

/-- Settles O21: no cycle runs in Faulted, and the other transactions by `transact_frame`. -/
theorem onlyResetLeavesFaulted : Obligations.OnlyResetLeavesFaulted := by
  intro s t q hf h
  have ofCycle (hcycle : q = .executeCycle) : t = s := by
    subst hcycle
    exact Host.Outcome.next.inj (h.symm.trans (executeCycle_of_faulted hf))
  refine ⟨fun hreset => ?_, ofCycle, ?_⟩
  · by_cases hcycle : q = .executeCycle
    · rw [ofCycle hcycle]
      exact ⟨hf, rfl⟩
    · rw [transact_frame hreset hcycle h]
      exact ⟨hf, rfl⟩
  · rintro rfl
    cases h
    exact ⟨rfl, rfl, rfl⟩

/-- The font lies at the font base (R41). -/
theorem initialWith_font (base : Config.FontBase) (font : Vector Byte 80) {k : Nat} (h : k < 80) :
    Memory.initialWith base font (base.addr + k) = font[k] := by
  simp [Memory.initialWith, h]

/-- Every other byte of the reset contents is 0 (R41). -/
theorem initialWith_outside (base : Config.FontBase) (font : Vector Byte 80) {a : Nat}
    (h : a < base.addr ∨ base.addr + 80 ≤ a) : Memory.initialWith base font a = 0#8 :=
  dif_neg (by omega)

/-- Settles O20: memory lists no byte, so it reads as the reset contents; every other piece by evaluation. -/
theorem resetLeavesTheResetState : Obligations.ResetLeavesTheResetState := by
  refine fun s => ⟨s.resetCore, rfl, rfl, rfl, fun u hu => ?_⟩
  obtain ⟨n, q, rfl⟩ : ∃ n q, u = { State.reset with rndCount := n, schedule := q } := by
    obtain rfl | rfl : u = s.resetCore ∨ u = State.reset := by simpa using hu
    · exact ⟨_, _, rfl⟩
    · exact ⟨_, _, rfl⟩
  refine ⟨fun _ => initialWith_font fontBase fontData, fun _ _ => initialWith_outside fontBase fontData,
    fun r => ?_, rfl, rfl, rfl, fun k => ?_, rfl, pixel_clear, fun k => ?_, rfl, rfl, rfl, rfl, rfl⟩
  · exact Vector.getElem_replicate r.isLt
  · exact Vector.getElem_replicate k.isLt
  · exact Vector.getElem_replicate k.isLt

end Sys2Proof.Machine
end

section
/-! 43_alu.md R176 to R180, R186 and R188: the flagged instructions, under each reading of `VF_ORDER`, and RND. The two
writes of a flagged instruction are read back once, for any flag and any result. -/

namespace Sys2Proof.Machine

/-! ## Flags and results, in numbers -/

theorem flagByte_toNat (p : Prop) [Decidable p] : (flagByte (decide p)).toNat = flagNat p := by
  by_cases hp : p <;> simp [flagByte, flagNat, hp]

theorem flagNat_congr {p q : Prop} [Decidable p] [Decidable q] (h : p ↔ q) : flagNat p = flagNat q := by
  simp only [flagNat, h]

theorem carryFlag_toNat (a b : Byte) : (flagByte (carryFlag a b)).toNat = flagNat (255 < a.toNat + b.toNat) :=
  flagByte_toNat _

theorem noBorrowFlag_toNat (a b : Byte) : (flagByte (noBorrowFlag a b)).toNat = flagNat (b.toNat ≤ a.toNat) :=
  flagByte_toNat _

theorem shiftRightFlag_toNat (a : Byte) : (flagByte (shiftRightFlag a)).toNat = a.toNat % 2 := by
  rw [shiftRightFlag, BitVec.getLsbD, Nat.testBit_zero, flagByte_toNat, flagNat]
  split <;> omega

theorem shiftLeftFlag_toNat (a : Byte) : (flagByte (shiftLeftFlag a)).toNat = a.toNat / 128 := by
  have := a.isLt
  rw [shiftLeftFlag, BitVec.getLsbD, Nat.testBit_eq_decide_div_mod_eq, flagByte_toNat, flagNat]
  split <;> omega

theorem subByte_toNat (a b : Byte) : (a - b).toNat = (a.toNat + 256 - b.toNat) % 256 := by
  have := b.isLt
  rw [BitVec.toNat_sub]
  omega

theorem shiftRightByte_toNat (a : Byte) : (a >>> 1).toNat = a.toNat / 2 := by
  rw [BitVec.toNat_ushiftRight, Nat.shiftRight_eq_div_pow]

theorem shiftLeftByte_toNat (a : Byte) : (a <<< 1).toNat = 2 * a.toNat % 256 := by
  rw [BitVec.toNat_shiftLeft, Nat.shiftLeft_eq, Nat.mul_comm]

/-! ## A flag and a result, written in either order -/

section
variable (s : State) (flag : Byte → Byte → Bool) (result : Byte → Byte → Byte) (x y : Reg)

/-- A flag written first stands where the result goes to another register; the result written last always stands. -/
theorem readReg_flag_result (f r : Byte) (k : Reg) :
    ((s.writeReg vf f).writeReg x r).readReg k = if k = x then r else if k = vf then f else s.readReg k := by
  rw [State.readReg_writeReg, State.readReg_writeReg]

theorem snapshot_result : (s.flagAndResult .snapshot flag result x y).readReg x = s.binary result x y :=
  State.readReg_writeReg_same _ _ _

theorem flagLast_flag :
    (s.flagAndResult .flagLast flag result x y).readReg vf = flagByte (flag (s.readReg x) (s.readReg y)) :=
  State.readReg_writeReg_same _ _ _

variable {x}

/-- Where the flag and the result go to different registers, both readings that read all operands first agree on the
result. -/
theorem operandsFirst_result (hx : x ≠ vf) {o : Config.VfOrder} (ho : o ≠ .sequential) :
    (s.flagAndResult o flag result x y).readReg x = s.binary result x y := by
  cases o with
  | sequential => exact absurd rfl ho
  | snapshot => exact snapshot_result s flag result x y
  | flagLast => exact (State.readReg_writeReg_other _ _ hx).trans (State.readReg_writeReg_same _ _ _)

/-- And on the flag. -/
theorem operandsFirst_flag (hx : x ≠ vf) {o : Config.VfOrder} (ho : o ≠ .sequential) :
    (s.flagAndResult o flag result x y).readReg vf = flagByte (flag (s.readReg x) (s.readReg y)) := by
  cases o with
  | sequential => exact absurd rfl ho
  | snapshot => exact (State.readReg_writeReg_other _ _ hx.symm).trans (State.readReg_writeReg_same _ _ _)
  | flagLast => exact flagLast_flag s flag result x y

/-- Where neither operand is VF the order of the reads and writes makes no difference (R188). -/
theorem flagAndResult_eq_flagLast (hx : x ≠ vf) (hy : y ≠ vf) (o : Config.VfOrder) :
    s.flagAndResult o flag result x y = s.flagAndResult .flagLast flag result x y := by
  have hswap (f r : Byte) : (s.writeReg vf f).writeReg x r = (s.writeReg x r).writeReg vf f :=
    State.writeReg_comm s hx.symm f r
  cases o with
  | flagLast => rfl
  | snapshot => exact hswap _ _
  | sequential =>
    have hread (f : Byte) : (s.writeReg vf f).binary result x y = s.binary result x y := by
      rw [State.binary, State.readReg_writeReg_other s f hx, State.readReg_writeReg_other s f hy, State.binary]
    simp only [State.flagAndResult, hread, hswap]

/-- The chosen reading: the result reads the flag where an operand is VF (R188, D10). -/
theorem sequential_result :
    let f := flagByte (flag (s.readReg x) (s.readReg y))
    (s.flagAndResult .sequential flag result x y).readReg x =
      result (if x = vf then f else s.readReg x) (if y = vf then f else s.readReg y) := by
  simp only [State.flagAndResult, State.readReg_writeReg_same, State.binary, State.readReg_writeReg]

theorem sequential_flag (hx : x ≠ vf) :
    (s.flagAndResult .sequential flag result x y).readReg vf = flagByte (flag (s.readReg x) (s.readReg y)) :=
  (readReg_flag_result s x _ _ vf).trans ((if_neg hx.symm).trans (if_pos rfl))

theorem sequential_other {k : Reg} (hk : k ≠ x) (hvf : k ≠ vf) :
    (s.flagAndResult .sequential flag result x y).readReg k = s.readReg k :=
  (readReg_flag_result s x _ _ k).trans ((if_neg hk).trans (if_neg hvf))

theorem boundResultAndFlag_eq_flagLast (hx : x ≠ vf) (o : Config.VfOrder) :
    s.boundResultAndFlag o flag result x y = s.boundResultAndFlag .flagLast flag result x y := by
  cases o with
  | flagLast => rfl
  | snapshot | sequential => exact State.writeReg_comm s hx.symm _ _

end

/-- Settles O38: each reading is `flagLast`. -/
theorem vfReadingsAgreeAwayFromVf : Obligations.VfReadingsAgreeAwayFromVf := fun s x y o p hx hy =>
  have agree (flag result) (y : Reg) (hy : y ≠ vf) :
      s.flagAndResult o flag result x y = s.flagAndResult p flag result x y :=
    (flagAndResult_eq_flagLast s flag result y hx hy o).trans (flagAndResult_eq_flagLast s flag result y hx hy p).symm
  ⟨(boundResultAndFlag_eq_flagLast s _ _ y hx o).trans (boundResultAndFlag_eq_flagLast s _ _ y hx p).symm,
    agree _ _ y hy, agree _ _ x hx, agree _ _ y hy, agree _ _ x hx⟩

/-- Where all operands are read first, binding ADD's sum before the flag is written makes no difference. -/
theorem addFlagged_eq_flagAndResult (s : State) (x y : Reg) {o : Config.VfOrder} (ho : o ≠ .sequential) :
    s.addFlagged o x y = s.flagAndResult o carryFlag (fun a b => a + b) x y := by
  cases o with
  | sequential => exact absurd rfl ho
  | snapshot | flagLast => rfl

/-- Settles O39: each cell is the result or the flag that the last write to its register left, as a number. -/
theorem vfReadingsWhereVfIsAnOperand : Obligations.VfReadingsWhereVfIsAnOperand := by
  intro s x y hx hy a b w
  have asNat {v v' : Byte} {n : Nat} (h : v = v') (hn : v'.toNat = n) : v.toNat = n := h ▸ hn
  have notSequential : ∀ o ∈ [Config.VfOrder.snapshot, .flagLast], o ≠ .sequential := by decide
  have subSelf : (s.readReg vf - s.readReg vf).toNat = 0 := by simp
  have noBorrowSelf : (flagByte (noBorrowFlag (s.readReg vf) (s.readReg vf))).toNat = 1 :=
    (noBorrowFlag_toNat _ _).trans (if_pos le_rfl)
  refine ⟨asNat (snapshot_result s _ _ vf y) (BitVec.toNat_add _ _),
    asNat (flagLast_flag s _ _ vf y) (carryFlag_toNat _ _), fun o ho => ⟨?_, ?_⟩,
    asNat (snapshot_result s _ _ vf vf) ?_, asNat (flagLast_flag s _ _ vf vf) ?_,
    asNat (snapshot_result s _ _ vf y) (subByte_toNat _ _), asNat (flagLast_flag s _ _ vf y) (noBorrowFlag_toNat _ _),
    fun o ho => ⟨?_, ?_, ?_, ?_⟩,
    asNat (snapshot_result s _ _ vf vf) subSelf, asNat (flagLast_flag s _ _ vf vf) noBorrowSelf,
    asNat (snapshot_result s _ _ vf vf) (shiftRightByte_toNat _),
    asNat (flagLast_flag s _ _ vf vf) (shiftRightFlag_toNat _),
    asNat (snapshot_result s _ _ vf y) (subByte_toNat _ _), asNat (flagLast_flag s _ _ vf y) (noBorrowFlag_toNat _ _),
    asNat (snapshot_result s _ _ vf vf) subSelf, asNat (flagLast_flag s _ _ vf vf) noBorrowSelf,
    asNat (snapshot_result s _ _ vf vf) (shiftLeftByte_toNat _),
    asNat (flagLast_flag s _ _ vf vf) (shiftLeftFlag_toNat _)⟩
  · rw [addFlagged_eq_flagAndResult s x vf (notSequential o ho)]
    exact asNat (operandsFirst_result s _ _ vf hx (notSequential o ho)) (BitVec.toNat_add _ _)
  · rw [addFlagged_eq_flagAndResult s x vf (notSequential o ho)]
    exact asNat (operandsFirst_flag s _ _ vf hx (notSequential o ho)) (carryFlag_toNat _ _)
  · rw [State.binary, BitVec.toNat_add, ← Nat.two_mul]
  · rw [carryFlag_toNat]
    exact flagNat_congr (by omega)
  · exact asNat (operandsFirst_result s _ _ vf hx (notSequential o ho)) (subByte_toNat _ _)
  · exact asNat (operandsFirst_flag s _ _ vf hx (notSequential o ho)) (noBorrowFlag_toNat _ _)
  · exact asNat (operandsFirst_result s _ _ vf hx (notSequential o ho)) (subByte_toNat _ _)
  · exact asNat (operandsFirst_flag s _ _ vf hx (notSequential o ho)) (noBorrowFlag_toNat _ _)

/-! ## The words of 8xy4 to 8xyE -/

theorem decode_addRegWord (x y : Reg) : decode (patternXYN 0x8 x y 4) = .instr (.addReg x y) :=
  (decode_class8Word x y 4#4).trans (by simp [decodeClass8])

theorem decode_subWord (x y : Reg) : decode (patternXYN 0x8 x y 5) = .instr (.sub x y) :=
  (decode_class8Word x y 5#4).trans (by simp [decodeClass8])

theorem decode_shrWord (x y : Reg) : decode (patternXYN 0x8 x y 6) = .instr (.shr x y) :=
  (decode_class8Word x y 6#4).trans (by simp [decodeClass8])

theorem decode_subnWord (x y : Reg) : decode (patternXYN 0x8 x y 7) = .instr (.subn x y) :=
  (decode_class8Word x y 7#4).trans (by simp [decodeClass8])

theorem decode_shlWord (x y : Reg) : decode (patternXYN 0x8 x y 0xE) = .instr (.shl x y) :=
  (decode_class8Word x y 0xE#4).trans (by simp [decodeClass8])

/-! ## The bodies of 8xy4 to 8xyE -/

/-- Settles O34: the sum is bound first, so it never reads the flag. -/
theorem addSetsCarry : Obligations.AddSetsCarry := by
  intro x y s
  refine ⟨decode_addRegWord x y, s.addFlagged .sequential x y, rfl, rfl, ?_, fun hx => ?_, fun r hr hvf => ?_⟩
  · exact (congrArg BitVec.toNat (State.readReg_writeReg_same _ x _)).trans (BitVec.toNat_add _ _)
  · rw [← carryFlag_toNat]
    exact congrArg BitVec.toNat ((readReg_flag_result s x _ _ vf).trans ((if_neg hx.symm).trans (if_pos rfl)))
  · exact (readReg_flag_result s x _ _ r).trans ((if_neg hr).trans (if_neg hvf))

/-- Settles O35: the difference reads the flag where an operand is VF, `sequential_result`. -/
theorem subSetsNoBorrow : Obligations.SubSetsNoBorrow := by
  intro x y s
  have hresult := sequential_result s noBorrowFlag (fun a b => a - b) (x := x) y
  have hflag := noBorrowFlag_toNat (s.readReg x) (s.readReg y)
  refine ⟨decode_subWord x y, s.subFlagged .sequential x y, rfl, rfl, fun hx hy => ?_, fun hx hy => ?_,
    fun hx hy => ?_, fun hx hy => ?_, fun hx => ?_, fun r => sequential_other s _ _ y⟩
  · rw [State.subFlagged, hresult, if_neg hx, if_neg hy, subByte_toNat]
  · rw [State.subFlagged, hresult, if_pos hx, if_neg hy, subByte_toNat, hflag]
  · rw [State.subFlagged, hresult, if_neg hx, if_pos hy, subByte_toNat, hflag]
  · rw [State.subFlagged, hresult, if_pos hx, if_pos hy, BitVec.sub_self]
    rfl
  · rw [State.subFlagged, sequential_flag s _ _ y hx, hflag]

/-- Settles O36: as SUB, with the operands of the difference and of the flag exchanged. -/
theorem subnSetsNoBorrow : Obligations.SubnSetsNoBorrow := by
  intro x y s
  have hresult := sequential_result s (fun a b => noBorrowFlag b a) (fun a b => b - a) (x := x) y
  have hflag := noBorrowFlag_toNat (s.readReg y) (s.readReg x)
  refine ⟨decode_subnWord x y, s.subnFlagged .sequential x y, rfl, rfl, fun hx hy => ?_, fun hx hy => ?_,
    fun hx hy => ?_, fun hx hy => ?_, fun hx => ?_, fun r => sequential_other s _ _ y⟩
  · rw [State.subnFlagged, hresult, if_neg hx, if_neg hy, subByte_toNat]
  · rw [State.subnFlagged, hresult, if_pos hx, if_neg hy, subByte_toNat, hflag]
  · rw [State.subnFlagged, hresult, if_neg hx, if_pos hy, subByte_toNat, hflag]
  · rw [State.subnFlagged, hresult, if_pos hx, if_pos hy, BitVec.sub_self]
    rfl
  · rw [State.subnFlagged, sequential_flag s _ _ y hx, hflag]

/-- Settles O37: V[x] is both operands of `flagAndResult`; with x = 0xF the value shifted is the flag, 0 or 1. -/
theorem shiftsSetBitOut : Obligations.ShiftsSetBitOut := by
  intro x y s
  refine ⟨decode_shrWord x y, decode_shlWord x y,
    ⟨s.shrFlagged .sequential x, rfl, rfl, fun hx => ⟨?_, ?_⟩, ?_, fun r => sequential_other s _ _ x⟩,
    ⟨s.shlFlagged .sequential x, rfl, rfl, fun hx => ⟨?_, ?_⟩, ?_, fun r => sequential_other s _ _ x⟩⟩
  · rw [State.shrFlagged, sequential_result, if_neg hx, shiftRightByte_toNat]
  · rw [State.shrFlagged, sequential_flag s _ _ x hx, shiftRightFlag_toNat]
  · rintro rfl
    rw [State.shrFlagged, sequential_result, if_pos rfl, shiftRightByte_toNat, shiftRightFlag_toNat]
    omega
  · rw [State.shlFlagged, sequential_result, if_neg hx, shiftLeftByte_toNat]
  · rw [State.shlFlagged, sequential_flag s _ _ x hx, shiftLeftFlag_toNat]
  · rintro rfl
    rw [State.shlFlagged, sequential_result, if_pos rfl, shiftLeftByte_toNat, shiftLeftFlag_toNat]
    omega

/-! ## RND (R186) -/

theorem decode_rndWord (x : Reg) (kk : Byte) : decode (patternXKK 0xC x kk.toNat) = .instr (.rnd x kk) :=
  (congrArg decode (patternXKK_eq_formatXKK 0xC#4 x kk)).trans (by simp [decode])

/-- Settles O40: one call is counted and one register written. -/
theorem randomByteIsMasked : Obligations.RandomByteIsMasked := by
  refine fun x kk r s => ⟨decode_rndWord x kk, ⟨_, rfl, rfl, rfl⟩, fun n => ?_, fun k hk => ?_⟩
  · rw [State.randomInto, State.readReg_writeReg_same]
    exact BitVec.getElem_and n.isLt
  · exact State.readReg_writeReg_other s.consumeRandom _ hk

end Sys2Proof.Machine
end

section
/-! 44_index_memory.md R204 to R210, 20_memory.md R54 and R63: the glyph addresses, and the instructions that
dereference I. -/

namespace Sys2Proof.Machine

/-! ## LD F (R204) -/

/-- Settles O42: the address by `glyphAddress_toNat`, the bytes there as bytes of the font. -/
theorem glyphAddressForEveryFontBase : Obligations.GlyphAddressForEveryFontBase := by
  refine fun base font b => ⟨glyphAddress_toNat base b, fun k hk _ => ?_⟩
  rw [glyphAddress_toNat, Nat.add_assoc]
  exact initialWith_font base font hk

/-! ## LD B (R206) -/

theorem decode_ldBWord (x : Reg) : decode (patternXKK 0xF x 0x33) = .instr (.ldB x) :=
  (congrArg decode (patternXKK_eq_formatXKK 0xF#4 x 0x33#8)).trans (by simp [decode, decodeClassF])

theorem hundreds_toNat (b : Byte) : (hundreds b).toNat = b.toNat / 100 := BitVec.toNat_udiv

theorem tens_toNat (b : Byte) : (tens b).toNat = b.toNat / 10 % 10 := by
  rw [tens, BitVec.toNat_umod, BitVec.toNat_udiv]
  rfl

theorem ones_toNat (b : Byte) : (ones b).toNat = b.toNat % 10 := BitVec.toNat_umod

/-- Reading a byte after one store at an effective address. -/
theorem read_writeEA {s : State} (h : s.mem.wf = true) (k : Nat) (b : Byte) (a : Nat) :
    (s.writeEA k b).mem.read a = if a = effectiveAddress s.i k then b else s.mem.read a :=
  Memory.read_write _ _ _ h

/-- Reading a byte after the three stores of LD B; the last one to its address wins. -/
theorem read_writeEA_three {s : State} (h : s.mem.wf = true) (b₀ b₁ b₂ : Byte) (a : Nat) :
    (((s.writeEA 0 b₀).writeEA 1 b₁).writeEA 2 b₂).mem.read a =
      if a = effectiveAddress s.i 2 then b₂ else if a = effectiveAddress s.i 1 then b₁
      else if a = effectiveAddress s.i 0 then b₀ else s.mem.read a := by
  rw [read_writeEA (writeEA_wf 1 b₁ (writeEA_wf 0 b₀ h)), read_writeEA (writeEA_wf 0 b₀ h), read_writeEA h]
  rfl

theorem effectiveAddress_ne (i : Word) {j k : Nat} (hj : j < 4096) (hk : k < 4096) (h : j ≠ k) :
    effectiveAddress i j ≠ effectiveAddress i k := fun he =>
  h (Memory.effectiveAddress_inj hj hk he)

/-- Settles O43: EA(0), EA(1) and EA(2) are distinct, so each keeps the digit stored there. -/
theorem decimalDigitsAreStored : Obligations.DecimalDigitsAreStored := by
  intro x s hs
  have hread := read_writeEA_three hs.memCanonical (hundreds (s.readReg x)) (tens (s.readReg x)) (ones (s.readReg x))
  have h01 := effectiveAddress_ne s.i (show 0 < 4096 by decide) (show 1 < 4096 by decide) (by decide)
  have h02 := effectiveAddress_ne s.i (show 0 < 4096 by decide) (show 2 < 4096 by decide) (by decide)
  have h12 := effectiveAddress_ne s.i (show 1 < 4096 by decide) (show 2 < 4096 by decide) (by decide)
  refine ⟨decode_ldBWord x, _, rfl, rfl, ?_, ?_, ?_, fun a _ hout => ?_⟩
  · rw [hread, if_neg h02, if_neg h01, if_pos rfl, hundreds_toNat]
  · rw [hread, if_neg h12, if_pos rfl, tens_toNat]
  · rw [hread, if_pos rfl, ones_toNat]
  · rw [hread, if_neg (hout 2 (by decide)).symm, if_neg (hout 1 (by decide)).symm, if_neg (hout 0 (by decide)).symm]

/-! ## The register blocks (R208, R210) -/

theorem decode_ldIVxWord (x : Reg) : decode (patternXKK 0xF x 0x55) = .instr (.ldIVx x) :=
  (congrArg decode (patternXKK_eq_formatXKK 0xF#4 x 0x55#8)).trans (by simp [decode, decodeClassF])

theorem decode_ldVxIWord (x : Reg) : decode (patternXKK 0xF x 0x65) = .instr (.ldVxI x) :=
  (congrArg decode (patternXKK_eq_formatXKK 0xF#4 x 0x65#8)).trans (by simp [decode, decodeClassF])

/-- Settles O44. -/
theorem blockIsStored : Obligations.BlockIsStored := by
  intro x s hs
  obtain ⟨-, hstored, hkept⟩ := storeBlock_mem s x hs.memCanonical
  exact ⟨decode_ldIVxWord x, s.storeBlock x, rfl, storeBlock_eq s x, hstored, fun a _ => hkept a⟩

/-- Settles O45. -/
theorem blockIsLoaded : Obligations.BlockIsLoaded := by
  intro x s
  obtain ⟨hframe, hread⟩ := loadBlock_spec s x
  refine ⟨decode_ldVxIWord x, s.loadBlock x, rfl, hframe, fun k hk => ?_, fun k hk => ?_⟩
  · exact (hread k).trans (if_pos hk)
  · exact (hread k).trans (if_neg (not_le.2 hk))

/-- Settles O46: EA(0) and EA(1) are the two addresses of the next fetch, and the block's first two registers are
there. -/
theorem storeReachesNextFetch : Obligations.StoreReachesNextFetch := by
  intro x s hs hx hpc
  obtain ⟨-, hstored, -⟩ := storeBlock_mem s x hs.memCanonical
  have hsame : (s.storeBlock x).pc = s.pc := by rw [storeBlock_eq]
  have hfirst : s.pc.toNat % 4096 = effectiveAddress s.i (0 : Reg).val := hpc.symm
  have hsecond : (s.pc.toNat + 1) % 4096 = effectiveAddress s.i (1 : Reg).val := by
    show _ = (s.i.toNat + 1) % 4096
    omega
  refine ⟨s.storeBlock x, rfl, ?_⟩
  rw [fetch16, wordOfBytes_toNat, hsame, hfirst, hsecond, hstored 0 (Fin.zero_le x), hstored 1 hx, Nat.mul_comm]

/-! ## The upper bits of I (20_memory.md R54) -/

theorem effectiveAddress_congr {w i : Word} (h : w.toNat % 4096 = i.toNat % 4096) :
    effectiveAddress w = effectiveAddress i := by
  funext k
  unfold effectiveAddress
  omega

/-- A byte is read at the same address. -/
theorem readEA_writeI {s : State} {w : Word} (h : w.toNat % 4096 = s.i.toNat % 4096) :
    (s.writeI w).readEA = s.readEA :=
  funext fun k => congrArg s.mem.read (congrFun (effectiveAddress_congr h) k)

/-- And stored there. -/
theorem writeEA_writeI {s : State} {w : Word} (h : w.toNat % 4096 = s.i.toNat % 4096) (k : Nat) (b : Byte) :
    (s.writeI w).writeEA k b = (s.writeEA k b).writeI w := by
  have haddress : effectiveAddress (s.writeI w).i = effectiveAddress s.i := effectiveAddress_congr h
  rw [State.writeEA, haddress]
  rfl

theorem storeBlock_writeI {s : State} {w : Word} (h : w.toNat % 4096 = s.i.toNat % 4096) (x : Reg) :
    (s.writeI w).storeBlock x = (s.storeBlock x).writeI w := by
  have haddress : effectiveAddress (s.writeI w).i = effectiveAddress s.i := effectiveAddress_congr h
  rw [State.storeBlock, State.storeBlock, storeRegs_eq, storeRegs_eq, haddress]
  rfl

theorem loadBlock_writeI {s : State} {w : Word} (h : w.toNat % 4096 = s.i.toNat % 4096) (x : Reg) :
    (s.writeI w).loadBlock x = (s.loadBlock x).writeI w := by
  obtain ⟨hframe, hread⟩ := loadBlock_spec s x
  obtain ⟨hframe', hread'⟩ := loadBlock_spec (s.writeI w) x
  refine State.ext_of_readReg (s := (s.loadBlock x).writeI w) ?_ fun k => ?_
  · rw [hframe', hframe]
    rfl
  · rw [hread', readEA_writeI h]
    exact (hread k).symm

theorem drawSprite_writeI {s : State} {w : Word} (h : w.toNat % 4096 = s.i.toNat % 4096) (x y : Reg) (n : Nibble) :
    (s.writeI w).drawSprite x y n = s.drawSprite x y n := by
  rw [State.drawSprite, State.spriteRows, readEA_writeI h]
  rfl

theorem execDrw_writeI {s : State} {w : Word} (h : w.toNat % 4096 = s.i.toNat % 4096) (x y : Reg) (n : Nibble) :
    execDrw x y n (s.writeI w) =
      .next ((State.writeReg { s with fb := (s.drawSprite x y n).1 } vf
        (flagByte (s.drawSprite x y n).2)).writeI w) := by
  rw [execDrw, drawSprite_writeI h]
  rfl

theorem execLdB_writeI {s : State} {w : Word} (h : w.toNat % 4096 = s.i.toNat % 4096) (x : Reg) :
    execLdB x (s.writeI w) = .next ((((s.writeEA 0 (hundreds (s.readReg x))).writeEA 1 (tens (s.readReg x))).writeEA 2
      (ones (s.readReg x))).writeI w) := by
  rw [execLdB, writeEA_writeI h, writeEA_writeI (s := s.writeEA _ _) h,
    writeEA_writeI (s := (s.writeEA _ _).writeEA _ _) h]
  rfl

/-- Settles O59: each of the four instructions sees I through its effective addresses alone. -/
theorem upperBitsOfIndexAreIgnored : Obligations.UpperBitsOfIndexAreIgnored := by
  intro i s t w hi hw h
  cases i with
  | drw x y n =>
    cases h
    exact execDrw_writeI hw x y n
  | ldB x =>
    cases h
    exact execLdB_writeI hw x
  | ldIVx x =>
    cases h
    exact congrArg Host.Outcome.next (storeBlock_writeI hw x)
  | ldVxI x =>
    cases h
    exact congrArg Host.Outcome.next (loadBlock_writeI hw x)
  | _ => cases hi

end Sys2Proof.Machine
end

section
/-! 41_control_flow.md R131, R133 and R138 (RET after CALL, and JP V0), 45_timer_key.md R232 (LD Vx, K and the key
wait). -/

namespace Sys2Proof.Machine

/-! ## RET after CALL, and JP V0 -/

/-- A slot just pushed is the one the next RET pops. -/
theorem popPc_push {s : State} (free : s.sp.val < 16) (w : Word)
    (occupied : 0 < ((s.pushPc free).writePc w).sp.val) :
    ((s.pushPc free).writePc w).popPc occupied = { s with stack := (s.pushPc free).stack } := by
  have hpc : (((s.pushPc free).writePc w).popPc occupied).pc = s.pc := Vector.getElem_set_self free
  calc ((s.pushPc free).writePc w).popPc occupied
      = { s with
          stack := (s.pushPc free).stack
          pc := (((s.pushPc free).writePc w).popPc occupied).pc } := rfl
    _ = { s with stack := (s.pushPc free).stack } := by rw [hpc]

/-- Settles O29: CALL's push course, then RET's pop course. -/
theorem returnUndoesCall : Obligations.ReturnUndoesCall := by
  intro nnn s free
  exact ⟨_, _, execCall_free nnn free, execRet_occupied (Nat.succ_pos s.sp.val), popPc_push free (zextAddr nnn) _,
    pushPc_slot free⟩

theorem decode_jpV0Word (nnn : Addr) : decode (patternNNN 0xB nnn) = .instr (.jpV0 nnn) :=
  (congrArg decode (patternNNN_eq_formatNNN 0xB#4 nnn)).trans (by simp [decode])

/-- An address and a byte add up to less than 65536, so nothing is cut off. -/
theorem zextAddr_add_zextByte_toNat (nnn : Addr) (b : Byte) :
    (zextAddr nnn + zextByte b).toNat = nnn.toNat + b.toNat := by
  have := nnn.isLt
  have := b.isLt
  rw [BitVec.toNat_add, zextAddr_toNat, zextByte_toNat, Nat.mod_eq_of_lt (by omega)]

/-- Settles O30: one write of PC. -/
theorem jumpV0AddsRegisterZero : Obligations.JumpV0AddsRegisterZero := fun nnn s =>
  ⟨decode_jpV0Word nnn, _, rfl, rfl, zextAddr_add_zextByte_toNat nnn (s.readReg 0)⟩

/-! ## The key wait -/

theorem decode_ldVxKWord (x : Reg) : decode (patternXKK 0xF x 0x0A) = .instr (.ldVxK x) :=
  (congrArg decode (patternXKK_eq_formatXKK 0xF#4 x 0x0A#8)).trans (by simp [decode, decodeClassF])

/-- Settles O48. -/
theorem keyWaitBegins : Obligations.KeyWaitBegins := fun x _ => ⟨decode_ldVxKWord x, rfl⟩

/-- The core s after it has run LD Vx, K, waiting, with the transactions q still to come. -/
def State.waitingFor (s : State) (x : Reg) (q : List Transaction) : State :=
  { s with pc := s.pc + 2#16, latch := some x, pendingKey := none, schedule := q }

section
variable {s : State} {x : Reg} (hf : s.faulted = false)

/-- The wait begins with the cycle that fetches LD Vx, K. -/
theorem step_begins_wait {q : List Transaction} (hrun : s.runState = .running)
    (hd : decode (fetch16 s.mem s.pc) = .instr (.ldVxK x)) (hq : s.schedule = .executeCycle :: q) :
    step s = .next (s.waitingFor x q) := by
  rw [step_of_scheduled hq]
  exact (executeCycle_of_running (s := { s with schedule := q }) hrun).trans
    (runOpcode_of_instr (s := { s with schedule := q }) hd)

/-- The host's next transaction finds the core waiting, -/
theorem step_waitingFor (p : Transaction) (q : List Transaction) :
    step (s.waitingFor x (p :: q)) = transact p (s.waitingFor x q) :=
  step_of_scheduled rfl

/-- also after a key press. -/
theorem step_waitingFor_pressed (k : KeyIx) (p : Transaction) (q : List Transaction) :
    step ((s.waitingFor x (p :: q)).pressKey k) = transact p ((s.waitingFor x q).pressKey k) :=
  step_of_scheduled rfl

/-- The press of a key that is up is recorded. -/
theorem step_waitingFor_keyDown {k : KeyIx} (hk : s.keys[k] = false) (q : List Transaction) :
    step (s.waitingFor x (.keyDown (BitVec.ofNat 8 k.val) :: q)) = .next ((s.waitingFor x q).pressKey k) := by
  have hindex : (BitVec.ofNat 8 k.val).toNat = k.val := byteOfKey_toNat k
  exact (step_waitingFor _ q).trans (congrArg Host.Outcome.next (keyDown_of_up (s := s.waitingFor x q) hindex hk))

include hf

theorem waitingFor_runState (q : List Transaction) : (s.waitingFor x q).runState = .waitingKey :=
  (runState_waiting_iff _).2 ⟨hf, rfl⟩

/-- A cycle without a key press changes nothing. -/
theorem step_waitingFor_cycle (q : List Transaction) :
    step (s.waitingFor x (.executeCycle :: q)) = .next (s.waitingFor x q) :=
  (step_waitingFor _ q).trans (executeCycle_of_waiting (waitingFor_runState hf q) rfl)

/-- Nor do any number n of them. -/
theorem core_run_waitingFor (n j : Nat) (q : List Transaction) :
    Sys2Proof.core.run (n + j) (s.waitingFor x (List.replicate n .executeCycle ++ q)) =
      Sys2Proof.core.run j (s.waitingFor x q) := by
  induction n with
  | zero => rw [Nat.zero_add, List.replicate_zero, List.nil_append]
  | succ n ih =>
    rw [Nat.succ_add, List.replicate_succ, List.cons_append, core_run_succ _ (step_waitingFor_cycle hf _), ih]

/-- The next cycle ends the wait. -/
theorem step_pressed_cycle (k : KeyIx) (q : List Transaction) :
    step ((s.waitingFor x (.executeCycle :: q)).pressKey k) = .next (((s.waitingFor x q).pressKey k).endWait x k) :=
  (step_waitingFor_pressed k _ q).trans
    (executeCycle_of_pending (s := (s.waitingFor x q).pressKey k) (waitingFor_runState hf q) rfl rfl)

end

/-- Settles O49: the cycle that begins the wait, n that do nothing, the press, and the cycle that ends the wait. -/
theorem keyDownEndsKeyWait : Obligations.KeyDownEndsKeyWait := by
  intro s x k n rest hrun hd hk hschedule
  obtain ⟨hf, -⟩ := (runState_running_iff s).1 hrun
  have hrest : s.schedule = .executeCycle ::
      (List.replicate n .executeCycle ++ ([.keyDown (BitVec.ofNat 8 k.val), .executeCycle] ++ rest)) := by
    rw [hschedule, List.replicate_succ, List.append_assoc, List.cons_append]
  have hbegin := step_begins_wait hrun hd hrest
  refine ⟨⟨_, (core_run_succ n hbegin).trans (core_run_waitingFor hf n 0 _), rfl⟩,
    ((s.waitingFor x rest).pressKey k).endWait x k, ?_, rfl, ?_, fun r hr => ?_,
    fun j => getElem_set_key s.keys k j true⟩
  · rw [core_run_succ (n + 2) hbegin, core_run_waitingFor hf n 2]
    exact (core_run_succ 1 (step_waitingFor_keyDown hk _)).trans (core_run_succ 0 (step_pressed_cycle hf k rest))
  · rw [readReg_endWait, if_pos rfl, byteOfKey_toNat]
  · rw [readReg_endWait, if_neg hr]
    rfl

end Sys2Proof.Machine
end

section
/-! 46_display.md R252 to R257: DRW. The blitter runs over the sprite's bits, from the sprite to the screen;
`spriteCovers` counts back, from a pixel to the sprite's bit. -/

namespace Sys2Proof.Machine

/-! ## The sprite seen from the screen -/

/-- The bit of a row that falls on a column is the wrapped distance. -/
theorem eq_wrapColumn_iff {px : Byte} {j : Nat} (hj : j < 64) (cx : Fin 64) :
    cx = wrapColumn px j ↔ j = (cx.val + 64 - px.toNat % 64) % 64 := by
  rw [Fin.ext_iff, show (wrapColumn px j).val = (px.toNat + j) % 64 from rfl]
  omega

/-- And so is the row of a sprite that falls on a row of the screen. -/
theorem eq_wrapRow_iff {py : Byte} {i : Nat} (hi : i < 32) (cy : Fin 32) :
    cy = wrapRow py i ↔ i = (cy.val + 32 - py.toNat % 32) % 32 := by
  rw [Fin.ext_iff, show (wrapRow py i).val = (py.toNat + i) % 32 from rfl]
  omega

/-- The bit j of the sprite's row k is a 1 and falls on the pixel. -/
def State.BitFallsOn (s : State) (x y : Reg) (n : Nibble) (k j : Nat) (cx : Fin 64) (cy : Fin 32) : Prop :=
  ((s.spriteRows n.toNat).getD k 0).getLsbD (7 - j) = true ∧ cx = wrapColumn (s.readReg x) j ∧
    cy = wrapRow (s.readReg y) k

/-- A pixel is covered exactly where one of the sprite's 1 bits falls. -/
theorem spriteCovers_iff (s : State) (x y : Reg) (n : Nibble) (cx : Fin 64) (cy : Fin 32) :
    s.spriteCovers x y n cx cy = true ↔
      ∃ k ∈ List.range n.toNat, ∃ j ∈ List.range 8, s.BitFallsOn x y n k j cx cy := by
  simp only [State.spriteCovers, Bool.and_eq_true, decide_eq_true_eq, List.mem_range]
  constructor
  · rintro ⟨⟨hj, hk⟩, hbit⟩
    refine ⟨_, hk, _, hj, ?_, (eq_wrapColumn_iff (by omega) cx).2 rfl, (eq_wrapRow_iff (by omega) cy).2 rfl⟩
    rw [spriteRows_getD s hk]
    exact hbit
  · rintro ⟨k, hk, j, hj, hbit, hx, hy⟩
    rw [spriteRows_getD s hk] at hbit
    rw [← (eq_wrapColumn_iff (by omega) cx).1 hx, ← (eq_wrapRow_iff (by omega) cy).1 hy]
    exact ⟨⟨hj, hk⟩, hbit⟩

/-! ## The draw -/

theorem spriteRows_fit (s : State) (n : Nibble) : 0 + (s.spriteRows n.toNat).length ≤ 32 := by
  rw [spriteRows_length]
  omega

/-- DRW inverts the covered pixels. -/
theorem drawSprite_pixel (s : State) (x y : Reg) (n : Nibble) (cx : Fin 64) (cy : Fin 32) :
    Framebuffer.pixel (s.drawSprite x y n).1 cx cy = (s.fb.pixel cx cy ^^ s.spriteCovers x y n cx cy) := by
  have hblit :=
    (blit_spec (s.readReg x) (s.readReg y) (s.spriteRows n.toNat) 0 (s.fb, false) (spriteRows_fit s n)).1 cx cy
  simp only [spriteRows_length, Nat.zero_add] at hblit
  rw [State.drawSprite, hblit]
  exact congrArg _ (Bool.eq_iff_iff.2 (decide_eq_true_iff.trans (spriteCovers_iff s x y n cx cy).symm))

/-- Its collision is a covered pixel that was 1. -/
theorem drawSprite_collision (s : State) (x y : Reg) (n : Nibble) :
    (s.drawSprite x y n).2 = true ↔ ∃ cx cy, s.spriteCovers x y n cx cy = true ∧ s.fb.pixel cx cy = true := by
  have hblit := (blit_spec (s.readReg x) (s.readReg y) (s.spriteRows n.toNat) 0 (s.fb, false) (spriteRows_fit s n)).2
  simp only [spriteRows_length, Nat.zero_add, Bool.false_eq_true, false_or] at hblit
  rw [State.drawSprite, hblit]
  constructor
  · rintro ⟨k, hk, j, hj, hbit, hpixel⟩
    exact ⟨_, _, (spriteCovers_iff s x y n _ _).2 ⟨k, hk, j, hj, hbit, rfl, rfl⟩, hpixel⟩
  · rintro ⟨cx, cy, hcovers, hpixel⟩
    obtain ⟨k, hk, j, hj, hbit, rfl, rfl⟩ := (spriteCovers_iff s x y n cx cy).1 hcovers
    exact ⟨k, hk, j, hj, hbit, hpixel⟩

theorem flagByte_toNat_le (c : Bool) : (flagByte c).toNat ≤ 1 := by
  cases c <;> decide

theorem flagByte_eq_one_iff (c : Bool) : flagByte c = 1#8 ↔ c = true := by
  cases c <;> decide

/-! ## The instruction -/

theorem decode_drwWord (x y : Reg) (n : Nibble) : decode (patternXYN 0xD x y n.toNat) = .instr (.drw x y n) :=
  (congrArg decode (patternXYN_eq_formatXYN 0xD#4 x y n)).trans (by simp [decode])

/-- VF holds the collision after a draw. -/
theorem execDrw_readReg_vf {x y : Reg} {n : Nibble} {s t : State} (h : exec (.drw x y n) s = .next t) :
    t.readReg vf = flagByte (s.drawSprite x y n).2 := by
  cases h
  exact State.readReg_writeReg_same _ _ _

/-- The framebuffer is the drawn one. -/
theorem execDrw_pixel {x y : Reg} {n : Nibble} {s t : State} (h : exec (.drw x y n) s = .next t) (cx : Fin 64)
    (cy : Fin 32) : t.fb.pixel cx cy = (s.fb.pixel cx cy ^^ s.spriteCovers x y n cx cy) := by
  cases h
  exact drawSprite_pixel s x y n cx cy

/-- VF is 1 exactly on a collision. -/
theorem execDrw_vf_eq_one_iff {x y : Reg} {n : Nibble} {s t : State} (h : exec (.drw x y n) s = .next t) :
    t.readReg vf = 1#8 ↔ ∃ cx cy, s.spriteCovers x y n cx cy = true ∧ s.fb.pixel cx cy = true := by
  rw [execDrw_readReg_vf h, flagByte_eq_one_iff, drawSprite_collision]

theorem execDrw_vf_le {x y : Reg} {n : Nibble} {s t : State} (h : exec (.drw x y n) s = .next t) :
    (t.readReg vf).toNat ≤ 1 := by
  rw [execDrw_readReg_vf h]
  exact flagByte_toNat_le _

/-- Settles O51: the pixels and the collision by the blitter, seen from the screen; a sprite of no rows draws nothing.
-/
theorem drawXorsTheSprite : Obligations.DrawXorsTheSprite := by
  refine fun x y n s => ⟨decode_drwWord x y n, _, rfl, rfl, execDrw_pixel rfl, execDrw_vf_le rfl,
    execDrw_vf_eq_one_iff rfl, fun _ hr => execDrw_readReg_other rfl hr, ?_⟩
  rintro rfl
  exact ⟨rfl, execDrw_readReg_vf rfl⟩

/-- What a sprite covers depends on memory, I and the two coordinates. -/
theorem spriteCovers_congr {s t : State} {x y : Reg} (hm : t.mem = s.mem) (hi : t.i = s.i)
    (hx : t.readReg x = s.readReg x) (hy : t.readReg y = s.readReg y) (n : Nibble) :
    t.spriteCovers x y n = s.spriteCovers x y n := by
  funext cx cy
  simp only [State.spriteCovers, hm, hi, hx, hy]

/-- Settles O52: the second draw covers the same pixels, so it inverts them back, and it meets them inverted. -/
theorem drawTwiceRestores : Obligations.DrawTwiceRestores := by
  intro x y n s t h hx hy
  have hsame : t.spriteCovers x y n = s.spriteCovers x y n := by
    refine spriteCovers_congr ?_ ?_ hx hy n <;> cases h <;> rfl
  have hdrawn := execDrw_pixel h
  refine ⟨_, rfl, ?_, execDrw_vf_le rfl, ?_⟩
  · refine Framebuffer.ext_of_pixel fun cx cy => (execDrw_pixel (s := t) rfl cx cy).trans ?_
    rw [hdrawn, hsame, Bool.xor_assoc, Bool.xor_self, Bool.xor_false]
  · refine (execDrw_vf_eq_one_iff (s := t) rfl).trans (exists₂_congr fun cx cy => ?_)
    rw [hsame, hdrawn]
    refine and_congr_right fun hcovers => ?_
    rw [hcovers, Bool.xor_true, Bool.not_eq_true']

end Sys2Proof.Machine
end

section
/-! Over all instructions: who writes a general register (10_state.md R21, R22), and who reads the byte source or the
host's schedule (43_alu.md R186). -/

namespace Sys2Proof.Machine

/-! ## The general registers -/

/-- A body leaves every register that its instruction does not name as one it writes. -/
theorem exec_keeps_reg {i : Instr} {s t : State} {k : Reg} (hk : i.mayWriteReg k = false) (h : exec i s = .next t) :
    t.readReg k = s.readReg k := by
  cases i with
  | ldImm | addImm | ldReg | orReg | andReg | xorReg | ldVxDt =>
    cases h
    exact State.readReg_writeReg_other s _ (ne_of_beq_false hk)
  | rnd x kk =>
    cases h
    exact State.readReg_writeReg_other s.consumeRandom _ (ne_of_beq_false hk)
  | addReg | sub | shr | subn | shl =>
    obtain ⟨hx, hvf⟩ := Bool.or_eq_false_iff.1 hk
    cases h
    exact (readReg_flag_result s _ _ _ k).trans
      ((if_neg (ne_of_beq_false hx)).trans (if_neg (ne_of_beq_false hvf)))
  | drw x y n => exact execDrw_readReg_other h (ne_of_beq_false hk)
  | ldVxI x =>
    cases h
    exact ((loadBlock_spec s x).2 k).trans (if_neg (of_decide_eq_false hk))
  | ldIVx x =>
    cases h
    rw [storeBlock_eq]
    rfl
  | seImm | sneImm | seReg | sneReg | skp | sknp =>
    cases h
    rw [State.skipIf_eq]
    rfl
  | ret => obtain ⟨-, rfl⟩ | ⟨-, rfl⟩ := execRet_cases h <;> rfl
  | call nnn => obtain ⟨-, rfl⟩ | ⟨-, rfl⟩ := execCall_cases h <;> rfl
  | cls | sys | jp | ldI | jpV0 | ldVxK | ldDtVx | addI | ldF | ldB =>
    cases h
    rfl

/-- A cycle of a waiting core leaves every register but the latched one. -/
theorem executeCycle_keeps_reg_of_waiting {s t : State} {k : Reg} (hs : s.runState = .waitingKey)
    (hk : s.latch ≠ some k) (h : executeCycle s = .next t) : t.readReg k = s.readReg k := by
  obtain ⟨x, hx⟩ := Option.isSome_iff_exists.1 ((runState_waiting_iff s).1 hs).2
  cases hp : s.pendingKey with
  | none =>
    cases (executeCycle_of_waiting hs hp).symm.trans h
    rfl
  | some j =>
    cases (executeCycle_of_pending hs hx hp).symm.trans h
    exact (readReg_endWait s x k j).trans (if_neg fun hkx => hk (hx.trans (congrArg some hkx.symm)))

/-- Settles O54: a register that changed is one of those its instruction names, or the latched one. -/
theorem onlyListedInstructionsWriteRegisters : Obligations.OnlyListedInstructionsWriteRegisters := by
  refine ⟨fun i s t k h hne => ?_, fun s t k hs h hne => ?_⟩
  · exact Bool.eq_true_of_not_eq_false fun hk => hne (exec_keeps_reg hk h)
  · by_contra hk
    exact hne (executeCycle_keeps_reg_of_waiting hs hk h)

/-! ## The byte source and the host's schedule -/

/-- No body writes the schedule, and only RND's counts a random byte. -/
theorem exec_keeps_source {i : Instr} {s t : State} (h : exec i s = .next t) :
    t.schedule = s.schedule ∧ (t.rndCount ≠ s.rndCount → ∃ x kk, i = .rnd x kk) := by
  have unchanged {p : Prop} (hne : s.rndCount ≠ s.rndCount) : p := absurd rfl hne
  cases exec_effect h with
  | random x kk v => exact ⟨rfl, fun _ => ⟨x, kk, rfl⟩⟩
  | skip _ c hi =>
    rw [State.skipIf_eq]
    exact ⟨rfl, unchanged⟩
  | data | jump | push | pop | fault | index | memory | timer | wait => exact ⟨rfl, unchanged⟩

/-- The state with another count of random bytes and another schedule. -/
def State.withSource (s : State) (n : Nat) (q : List Transaction) : State := { s with rndCount := n, schedule := q }

theorem skipIf_withSource (s : State) (n : Nat) (q : List Transaction) (c : Bool) :
    (s.withSource n q).skipIf c = (s.skipIf c).withSource n q := by
  cases c <;> rfl

theorem storeBlock_withSource (s : State) (n : Nat) (q : List Transaction) (x : Reg) :
    (s.withSource n q).storeBlock x = (s.storeBlock x).withSource n q :=
  List.foldl_hom (State.withSource · n q) fun _ _ => rfl

theorem loadBlock_withSource (s : State) (n : Nat) (q : List Transaction) (x : Reg) :
    (s.withSource n q).loadBlock x = (s.loadBlock x).withSource n q :=
  List.foldl_hom (State.withSource · n q) fun _ _ => rfl

/-- A body other than RND's does the same whatever the byte source and the schedule are, and hands both on. RET and
CALL by their two courses, a skip and a loop over registers by their lemmas above; the other bodies are single updates
of other fields. -/
theorem exec_withSource {i : Instr} {s t : State} (n : Nat) (q : List Transaction) (hother : ∀ x kk, i ≠ .rnd x kk)
    (h : exec i s = .next t) : exec i (s.withSource n q) = .next (t.withSource n q) := by
  cases i with
  | rnd x kk => exact absurd rfl (hother x kk)
  | ret =>
    obtain ⟨empty, rfl⟩ | ⟨occupied, rfl⟩ := execRet_cases h
    · exact execRet_empty (s := s.withSource n q) empty
    · exact execRet_occupied (s := s.withSource n q) occupied
  | call nnn =>
    obtain ⟨full, rfl⟩ | ⟨free, rfl⟩ := execCall_cases h
    · exact execCall_full (s := s.withSource n q) nnn full
    · exact execCall_free (s := s.withSource n q) nnn free
  | seImm | sneImm | seReg | sneReg | skp | sknp =>
    cases h
    exact congrArg Host.Outcome.next (skipIf_withSource s n q _)
  | ldIVx x =>
    cases h
    exact congrArg Host.Outcome.next (storeBlock_withSource s n q x)
  | ldVxI x =>
    cases h
    exact congrArg Host.Outcome.next (loadBlock_withSource s n q x)
  | cls | sys | jp | ldImm | addImm | ldReg | orReg | andReg | xorReg | addReg | sub | shr | subn | shl | ldI | jpV0
  | drw | ldVxDt | ldVxK | ldDtVx | addI | ldF | ldB =>
    cases h
    rfl

/-- No transaction but a cycle counts a random byte. -/
theorem transact_keeps_rndCount {q : Transaction} {s t : State} (hcycle : q ≠ .executeCycle)
    (h : transact q s = .next t) : t.rndCount = s.rndCount := by
  by_cases hreset : q = .reset
  · subst hreset
    cases h
    rfl
  · rw [transact_frame hreset hcycle h]

/-- A cycle that counts a random byte runs RND. -/
theorem executeCycle_rndCount {s t : State} (h : executeCycle s = .next t) (hne : t.rndCount ≠ s.rndCount) :
    s.runState = .running ∧ ∃ x kk, decode (fetch16 s.mem s.pc) = .instr (.rnd x kk) := by
  obtain ⟨-, rfl⟩ | ⟨x, k, -, -, -, rfl⟩ | ⟨-, -, rfl⟩ | ⟨i, hrun, hd, hexec⟩ | ⟨-, -, rfl⟩ := executeCycle_cases h
  · exact absurd rfl hne
  · exact absurd rfl hne
  · exact absurd rfl hne
  · obtain ⟨x, kk, rfl⟩ := (exec_keeps_source hexec).2 hne
    exact ⟨hrun, x, kk, hd⟩
  · exact absurd rfl hne

/-- Settles O58: RND's body counts one byte, every other body commutes with a change of the source, and of the
transactions only a cycle runs a body. -/
theorem onlyRandomReadsTheByteSource : Obligations.OnlyRandomReadsTheByteSource := by
  refine ⟨fun i s t n q h => ⟨(exec_keeps_source h).1, ?_, fun hother => ⟨?_, exec_withSource n q hother h⟩⟩,
    fun q s t h hne => ?_⟩
  · rintro ⟨x, kk, rfl⟩
    cases h
    rfl
  · by_contra hne
    obtain ⟨x, kk, hi⟩ := (exec_keeps_source h).2 hne
    exact hother x kk hi
  · obtain rfl : q = .executeCycle := by
      by_contra hcycle
      exact hne (transact_keeps_rndCount hcycle h)
    exact ⟨rfl, executeCycle_rndCount h hne⟩

end Sys2Proof.Machine
end
